-- ==== Sys2Proof/Word.lean ====
section
/-! DEFINITION. Word.lean: the word types of the block (rules R6 and R8 of spec/00_scope.md). -/

namespace Sys2Proof

/-- A 64-bit unsigned value: STATE, INC, the 64-bit port registers, a buffer address (R6). -/
abbrev Word64 := BitVec 64

/-- A 32-bit unsigned value: a command word, a raw draw (R6). -/
abbrev Word32 := BitVec 32

/-- One byte of the buffer memory (R52). -/
abbrev Byte := BitVec 8

end Sys2Proof
end

