-- ==== Sys2Proof/Syntax.lean ====
section
/-! DEFINITION. Syntax.lean: the eleven commands (rule R71 of spec/30_encoding.md), one constructor per row of
spec/opcode_table.json, and the fields of the one instruction format CMD32 (rule R70). -/

namespace Sys2Proof

/-- A command. Only FILL carries anything in its word: the buffer-present bit P (R70). Every other operand is a value latched
at issue (R72). -/
inductive Instr where
  /-- SEED, `new(seed, stream)` (R101). -/
  | seed
  /-- SEEDD, `new(seed)` with the default stream (R102). -/
  | seedd
  /-- SEEDT, `new()`, the time-derived seed (R104). -/
  | seedt
  /-- CLRSTAT, clears STATUS.OVR (R108). -/
  | clrstat
  /-- NEXTU32, `next_u32()` (R128). -/
  | nextu32
  /-- BOUNDED, `next_bounded(max: u32)` (R146). -/
  | bounded
  /-- NEXT, `next()` (R150). -/
  | next
  /-- BELOW, `next_below(max: i32)` (R152). -/
  | below
  /-- RANGE, `next_in_range(min: i32, max: i32)` (R155). -/
  | range
  /-- FILL, `fill_bytes(buffer)`; `present` is field P (R160). -/
  | fill (present : Bool)
  /-- SAMPLE, `sample()` (R170). -/
  | sample
  deriving DecidableEq, Repr

/-- The fields of a CMD32 word (R70): OPCODE is bits 7:0, P is bit 8, RES is bits 31:9. -/
structure CmdFields where
  opcode : BitVec 8
  p : Bool
  res : BitVec 23
  deriving DecidableEq, Repr

end Sys2Proof
end

