-- ==== Sys2Proof/Decode.lean ====
section
/-! DEFINITION. Decode.lean: `decode`, total on every 32-bit word and refusing by name (rules R70, R71, R74 and R75 of
spec/30_encoding.md), the encoder beside it, and the host's reading of an opcode-table word. -/

namespace Sys2Proof

/-- Why a word is no command: the clauses (a), (b) and (c) of R74. -/
inductive IllegalCmd where
  /-- R74 (a): RES = w[31:9] is not 0. -/
  | reservedBits
  /-- R74 (b): OPCODE is not one of the eleven values of R71. -/
  | unassignedOpcode
  /-- R74 (c): P = 1 and OPCODE is not 0x15. -/
  | bufferBitOutsideFill
  deriving DecidableEq, Repr

/-- What a word decodes to: "every word is either exactly one command of rule R71 or illegal" (R74). -/
inductive Decoded where
  | legal (i : Instr)
  | illegal (why : IllegalCmd)
  deriving DecidableEq, Repr

/-- The fields of a word (R70). -/
def CmdFields.ofWord (w : Word32) : CmdFields where
  opcode := w.extractLsb' 0 8
  p := w.getLsbD 8
  res := w.extractLsb' 9 23

/-- The word with given fields (R70): RES from bit 9 up, P at bit 8, OPCODE below. -/
def CmdFields.toWord (f : CmdFields) : Word32 :=
  BitVec.ofNat 32 (f.res.toNat * 2 ^ 9 + f.p.toNat * 2 ^ 8 + f.opcode.toNat)

/-- The opcode map of R71. FILL stands for both values of P; `decode` puts the word's own P in. -/
def opcodeTable : List (BitVec 8 × Instr) :=
  [(0x01, .seed), (0x02, .seedd), (0x03, .seedt), (0x08, .clrstat), (0x10, .nextu32), (0x11, .bounded),
   (0x12, .next), (0x13, .below), (0x14, .range), (0x15, .fill false), (0x16, .sample)]

/-- The command with field P of its word put in: only FILL has that field (R70). -/
def Instr.withBufferBit (p : Bool) : Instr → Instr
  | .seed => .seed
  | .seedd => .seedd
  | .seedt => .seedt
  | .clrstat => .clrstat
  | .nextu32 => .nextu32
  | .bounded => .bounded
  | .next => .next
  | .below => .below
  | .range => .range
  | .fill _ => .fill p
  | .sample => .sample

/-- `Decode(w)` on the fields of w: R75's tests in R75's order. -/
def decodeFields (f : CmdFields) : Decoded :=
  if f.res ≠ 0 then .illegal .reservedBits
  else match opcodeTable.lookup f.opcode with
    | none => .illegal .unassignedOpcode
    | some i => if f.p = true ∧ f.opcode ≠ 0x15 then .illegal .bufferBitOutsideFill else .legal (i.withBufferBit f.p)

/-- `Decode(w)` of R75. -/
def decode (w : Word32) : Decoded := decodeFields (.ofWord w)

/-- The OPCODE of a command (R71). -/
def Instr.opcode : Instr → BitVec 8
  | .seed => 0x01
  | .seedd => 0x02
  | .seedt => 0x03
  | .clrstat => 0x08
  | .nextu32 => 0x10
  | .bounded => 0x11
  | .next => 0x12
  | .below => 0x13
  | .range => 0x14
  | .fill _ => 0x15
  | .sample => 0x16

/-- Field P of a command: 0 for every opcode but FILL's (R70). -/
def Instr.bufferBit : Instr → Bool
  | .seed => false
  | .seedd => false
  | .seedt => false
  | .clrstat => false
  | .nextu32 => false
  | .bounded => false
  | .next => false
  | .below => false
  | .range => false
  | .fill present => present
  | .sample => false

/-- The word of a command (R70, R71): RES is 0. -/
def encode (i : Instr) : Word32 := CmdFields.toWord { opcode := i.opcode, p := i.bufferBit, res := 0 }

/-- The instruction of a decoded word, if it is one. -/
def Decoded.toOption : Decoded → Option Instr
  | .legal i => some i
  | .illegal _ => none

/-- Does the word decode to a command? -/
def Decoded.isLegal : Decoded → Bool
  | .legal _ => true
  | .illegal _ => false

/-- The 32-bit word of an opcode-table row given as `nbits` bits of a number: the bits above `nbits` are 0. -/
def tableWord (nbits w : Nat) : Word32 := BitVec.ofNat 32 (w % 2 ^ nbits)

/-- The instruction the decoder reads from an opcode-table word. A CMD32 word is one 32-bit register write, so it has no byte
layout of its own (R54, R70). -/
def decodeTableWord (nbits w : Nat) : Option Instr := (decode (tableWord nbits w)).toOption

end Sys2Proof
end

