-- ==== Sys2Proof/Config.lean ====
section
/-! DEFINITION. Config.lean: the implementation parameters of rule R6 and the free values the spec leaves open
(spec/93_implementation_defined.md). The parameters are ONE record, `Config`, which `State` carries unchanged, so that a statement
about every state is a statement about every choice of the parameters. The free values are constants with no body: nothing can be
proved about what they are. -/

namespace Sys2Proof

/-- THRESHOLD_FORM (R6, R141): `doc` is the source's formula and the default, `ref` the exactly unbiased one (C1, D14). -/
inductive ThresholdForm where
  | doc
  | ref
  deriving DecidableEq, Repr

/-- A range of buffer addresses whose byte writes the platform admits (R52, R59): `size` addresses from `base` upward. -/
structure Region where
  base : Word64
  size : Nat
  deriving DecidableEq, Repr

/-- The parameters of rule R6 that an implementation or a platform fixes. No step changes them. -/
structure Config where
  /-- THRESHOLD_FORM (R141). -/
  thresholdForm : ThresholdForm
  /-- FILL_EMPTY_TAIL_DRAW (R163): true is the value 1. -/
  fillEmptyTailDraw : Bool
  /-- DEFAULT_STREAM, OPEN (R103). -/
  defaultStream : Word64
  /-- PORT_BASE, OPEN (R26). -/
  portBase : Word64
  /-- The extent of the admitted buffer memory (R52, R59). -/
  buffer : List Region
  deriving DecidableEq, Repr

/-- DEFAULT_STREAM of the machine after reset: OPEN, "a model must not assume any particular value" (R103, D12). -/
opaque Config.openDefaultStream : Word64

/-- PORT_BASE of the machine after reset: OPEN (R26, D2). -/
opaque Config.openPortBase : Word64

/-- The value an undriven or unobserved TIME input latches at an issue: "a free draw, under no law" (R35, D13).
The argument is the state's counter of free values. -/
opaque Config.freeTime : Nat → Word64

/-- Whether the byte write of the second argument's index had landed when reset abandoned a FILL: "any subset of the byte writes"
(R231). The first argument is the state's counter of free values. -/
opaque Config.freeLanded : Nat → Nat → Bool

/-- How a race between a running FILL and another agent's access to one of its bytes is resolved (R62, R244).
The argument is the state's counter of free values. -/
opaque Config.freeRace : Nat → Bool

/-- What the platform's buffer memory held at an address before anything the model has seen was written there (R50: the memory
is "owned by the platform"; the spec gives it no contents). -/
opaque Config.bufferInit : Word64 → Byte

end Sys2Proof
end

