-- ==== Sys2Proof/Machine/Defaults.lean ====
section
/-! DEFINITION. Machine/Defaults.lean: the parameters the machine has after reset: the defaults rule R6 names, the OPEN constants
where it says OPEN. No statement rests on them. -/

namespace Sys2Proof.Machine

/-- THRESHOLD_FORM = DOC and FILL_EMPTY_TAIL_DRAW = 0 are R6's defaults; DEFAULT_STREAM and PORT_BASE are OPEN; that the whole
2^64-byte space is admitted is the model's choice (log entry 6). -/
def resetConfig : Config where
  thresholdForm := .doc
  fillEmptyTailDraw := false
  defaultStream := Config.openDefaultStream
  portBase := Config.openPortBase
  buffer := [{ base := 0, size := 2 ^ 64 }]

end Sys2Proof.Machine
end

