-- ==== Sys2Proof/Machine/Inputs.lean ====
section
/-! DEFINITION. Machine/Inputs.lean: what reaches the block from outside, one constructor per interface of rule R38 of
spec/10_state.md, and the schedule's own two (the block's turn, the host's poll loop). `State.events` holds a list of these: the
serialised order in which the agents move (R61, R64, R243). -/

namespace Sys2Proof.Machine

/-- One access of the register port (R56) at a platform address, of a width in bits. -/
inductive Access where
  | read (addr : Word64) (width : Nat)
  | write (addr : Word64) (width : Nat) (data : Word64)
  deriving DecidableEq, Repr

/-- One move of an agent. -/
inductive Event where
  /-- A host accesses the register port (R26, R56). -/
  | access (a : Access)
  /-- The poll loop `wait` of R77. -/
  | wait
  /-- The block's turn: a running command completes (R207). How many events come before it is the command's latency, which is
  unspecified (R247). -/
  | block
  /-- The platform drives TIME to a value the model knows, or (`none`) to one it does not (R35). -/
  | driveTime (t : Option Word64)
  /-- The reset input is asserted and released (R230). -/
  | reset
  /-- Another agent (or the host) reads a byte of the buffer memory (R62, R244). -/
  | bufRead (addr : Word64)
  /-- Another agent (or the host) writes a byte of the buffer memory (R244). -/
  | bufWrite (addr : Word64) (v : Byte)
  deriving DecidableEq, Repr

end Sys2Proof.Machine
end

