-- ==== Sys2Proof/Machine/Memory.lean ====
section
/-! DEFINITION. Machine/Memory.lean: the buffer memory (rules R50 and R52 of spec/20_memory.md), a list of (address, byte) pairs
with strictly rising addresses. The block writes it one byte at a time and never reads it; other agents do both. -/

namespace Sys2Proof.Machine

/-- The bytes of the buffer memory that something has written, by address. -/
abbrev Memory := List Host.Cell

/-- What an unlisted address reads as: no value. The memory is the platform's and the spec gives it no contents, so the model
knows only what has been written (R50, log entry 4). -/
def Memory.unlisted : Option Byte := none

/-- The byte at an address, or `Memory.unlisted`. -/
def Memory.read : Memory → Nat → Option Byte
  | [], _ => Memory.unlisted
  | (b, v) :: m, a => if a = b then some v else Memory.read m a

/-- `MemWrite(a, 1, v)` on an admitted address (R52). -/
def Memory.write : Memory → Nat → Byte → Memory
  | [], a, v => [(a, v)]
  | (b, w) :: m, a, v =>
    if a < b then (a, v) :: (b, w) :: m
    else if a = b then (a, v) :: m
    else (b, w) :: Memory.write m a v

/-- The canonical form: addresses strictly rising from `lo` on, all inside the 2^64 addresses of R50. No listed byte equals what
an unlisted address reads as, since that is no byte at all. -/
def Memory.wfFrom : Nat → Memory → Bool
  | _, [] => true
  | lo, (b, _) :: m => decide (lo ≤ b) && decide (b < 2 ^ 64) && Memory.wfFrom (b + 1) m

/-- The canonical form of the whole memory. -/
def Memory.wf (m : Memory) : Bool := Memory.wfFrom 0 m

end Sys2Proof.Machine
end

