-- ==== Sys2Proof/Machine/State.lean ====
section
/-! DEFINITION. Machine/State.lean: the state of the block and of what stands at its interfaces (spec/10_state.md), the reasons
a step can stop, and the state after reset (rule R39). -/

namespace Sys2Proof.Machine

/-- STATUS.ERR (R200). The reserved codes 5 to 15 are "never produced" and have no constructor. -/
inductive ErrCode where
  | noError
  | invalidArgument
  | nullBuffer
  | illegalCmd
  | unseeded
  deriving DecidableEq, Repr

/-- STATUS.PARAM: the parameter the last error names (R34). -/
inductive Param where
  | noParam
  | max
  | min
  | buffer
  deriving DecidableEq, Repr

/-- What the block holds while it executes a command (R37): the draw counter, the retry loop's current draw and threshold, and
FILL's byte index. -/
structure Work where
  draws : Word64
  cur : Word32
  thr : Word32
  idx : Nat
  deriving DecidableEq, Repr

/-- The working registers with nothing in them: their content outside a command "has no meaning" (R37). -/
def Work.idle : Work := { draws := 0, cur := 0, thr := 0, idx := 0 }

/-- The machine. Fields after `cfg` are the model's own: they stand for the interfaces of R38, not for registers of the block. -/
structure State where
  /-- STATE (R20). -/
  stateReg : Word64
  /-- INC (R22). -/
  inc : Word64
  /-- SEEDED, also STATUS[1] (R25). -/
  seeded : Bool
  /-- STATUS.BUSY (R28). -/
  busy : Bool
  /-- STATUS.OVR (R28). -/
  ovr : Bool
  /-- STATUS.ERR (R28). -/
  err : ErrCode
  /-- STATUS.PARAM (R28). -/
  param : Param
  /-- ARG0 (R29). -/
  arg0 : Word64
  /-- ARG1 (R29). -/
  arg1 : Word64
  /-- RESULT (R30). -/
  result : Word64
  /-- ERRVAL (R31). -/
  errval : Word64
  /-- DRAWS (R32). -/
  draws : Word64
  /-- LCMD, the latched command word (R37). -/
  lcmd : Word32
  /-- LA0, the latched ARG0 (R37). -/
  la0 : Word64
  /-- LA1, the latched ARG1 (R37). -/
  la1 : Word64
  /-- LT, the latched TIME (R37). -/
  lt : Word64
  /-- The working registers of the running command (R37). -/
  work : Work
  /-- The buffer memory (R50). -/
  mem : Memory
  /-- The parameters of R6; no step changes them. -/
  cfg : Config
  /-- The TIME input: a value the platform is known to drive, or `none`, when what an issue latches is a free value (R35). -/
  time : Option Word64
  /-- What the agents outside the block do next, in the order they do it. -/
  events : List Event
  /-- The value the last port read returned; `none` before the first. -/
  portData : Option Word64
  /-- The byte the last buffer read by another agent returned; `none` before the first. -/
  bufData : Option Byte
  /-- Addresses of the running FILL's range that another agent wrote after the FILL did (R244). -/
  overtaken : List Word64
  /-- How many free values have been used. -/
  freeIdx : Nat
  deriving DecidableEq, Repr

/-- Why the machine stops in a fault. -/
inductive Fault where
  /-- Raised by the retry loop of BOUNDED, BELOW, RANGE or SAMPLE when 2^64 draws were all rejected (D34). Safe: the spec
  sanctions it as unreachable, and it only adds an outcome (R143, R174). -/
  | retryExhausted
  deriving DecidableEq, Repr

/-- Why a step is refused. -/
inductive Refusal where
  /-- Raised by an arm of `exec` whose instruction has no meaning yet. Safe: no claim covers the instruction. -/
  | notModelled (mnemonic : String)
  /-- Raised by a port access of another width, at an offset that is no register's, or at 0x30 or above: "refused", it "has no
  step" (R56). Safe: the run ends where the host is stuck. -/
  | portAccess (addr : Word64) (width : Nat)
  deriving DecidableEq, Repr

/-- The machine after reset (R39, R230). STATE, INC, the latches and the working registers "hold no value" there: the model
names 0 for them (log entry 1); the model's own fields are log entry 5's. -/
def State.reset : State where
  stateReg := 0
  inc := 0
  seeded := false
  busy := false
  ovr := false
  err := .noError
  param := .noParam
  arg0 := 0
  arg1 := 0
  result := 0
  errval := 0
  draws := 0
  lcmd := 0
  la0 := 0
  la1 := 0
  lt := 0
  work := Work.idle
  mem := []
  cfg := resetConfig
  time := none
  events := []
  portData := none
  bufData := none
  overtaken := []
  freeIdx := 0

/-- The outcome of a step or of a meaning. -/
abbrev Result := Host.Outcome State Fault Refusal

end Sys2Proof.Machine
end

