-- ==== Sys2Proof/Machine/Operands.lean ====
section
/-! DEFINITION. Machine/Operands.lean: the notation of rules R8 to R11, and the operands of each command as rule R72 assembles
them from the latched values. -/

namespace Sys2Proof.Machine

/-- U32_MAX (R8). -/
def u32Max : Word32 := 0xFFFFFFFF

/-- `zext_32` (R10). -/
def zext32 (v : Word32) : Word64 := v.setWidth 64

/-- `sext_32` (R10). -/
def sext32 (v : Word32) : Word64 := v.signExtend 64

/-- `sint_32` (R10). -/
def sint32 (v : Word32) : Int := v.toInt

/-- `rotr32(x, r)` for 0 <= r <= 31, in the source's form (R11). -/
def rotr32 (x : Word32) (r : Nat) : Word32 := (x >>> r) ||| (x <<< ((32 - r) &&& 31))

/-- Bits 31:0 of a latched register (R72). -/
def low32 (v : Word64) : Word32 := v.setWidth 32

/-- SEED's and SEEDD's seed: LA0[63:0]. -/
def seedOperand (s : State) : Word64 := s.la0

/-- SEED's stream: LA1[63:0]. -/
def streamOperand (s : State) : Word64 := s.la1

/-- SEEDT's seed: LT[63:0]. -/
def timeOperand (s : State) : Word64 := s.lt

/-- BOUNDED's max (u32), and the field of BELOW's max and of RANGE's min (i32): LA0[31:0]. -/
def operand0 (s : State) : Word32 := low32 s.la0

/-- The field of RANGE's max (i32), and FILL's byte count (u32): LA1[31:0]. -/
def operand1 (s : State) : Word32 := low32 s.la1

/-- FILL's buffer base: LA0[63:0]. -/
def fillBase (s : State) : Word64 := s.la0

/-- FILL's byte count: LA1[31:0], unsigned. -/
def fillLength (s : State) : Nat := (operand1 s).toNat

end Sys2Proof.Machine
end

