-- ==== Sys2Proof/Machine/Ops.lean ====
section
/-! DEFINITION. Machine/Ops.lean: the operations every command is built from: issue (rules R27, R37), completion (R204, R207),
ending in an error (R201), the gate of rule R232, the raw draw (R120), the retry loop (R140, R170), and writes to the buffer
memory (R52). -/

namespace Sys2Proof.Machine

/-! ### Issue and completion -/

/-- The TIME value an issue latches, and the state after latching it: a driven value is taken as it is, any other is a free
value (R35). -/
def latchTime (s : State) : Word64 × State :=
  match s.time with
  | some t => (t, s)
  | none => (Config.freeTime s.freeIdx, { s with freeIdx := s.freeIdx + 1 })

/-- A CMD write of `w` accepted while BUSY = 0: latches w, ARG0, ARG1 and TIME, and sets BUSY (R27, R37, R205). -/
def issue (w : Word32) (s : State) : State :=
  { (latchTime s).2 with
    busy := true, lcmd := w, la0 := s.arg0, la1 := s.arg1, lt := (latchTime s).1, work := Work.idle, overtaken := [] }

/-- The start of a command's execution: the working registers are empty, so its draw count starts at 0 (R37, R120). -/
def startCommand (s : State) : State := { s with work := Work.idle }

/-- Completion without error (R204, R207): ERR, PARAM and ERRVAL become 0, DRAWS the running command's draw count, BUSY 0.
What the block held only while BUSY = 1 is emptied (R37). -/
def complete (s : State) : State :=
  { s with
    err := .noError, param := .noParam, errval := 0, draws := s.work.draws, busy := false,
    work := Work.idle, overtaken := [] }

/-- Completion of a value-producing command: RESULT too (R73, R204). -/
def completeValue (v : Word64) (s : State) : State := complete { s with result := v }

/-- `raise Error(code, param, value)` (R201): the command completes with the error and DRAWS = 0; RESULT, STATE, INC, SEEDED and
OVR keep their values. -/
def raiseError (code : ErrCode) (param : Param) (value : Word64) (s : State) : State :=
  { s with
    err := code, param := param, errval := value, draws := 0, busy := false,
    work := Work.idle, overtaken := [] }

/-- `require SEEDED = 1, else raise Error(UNSEEDED, 0, 0)`, the first line of every drawing command (R128 to R170, R232). -/
def requireSeeded (s : State) (body : State → Result) : Result :=
  if s.seeded then body (startCommand s) else .next (raiseError .unseeded .noParam 0 s)

/-! ### Construction -/

/-- `Construct(seed, stream)` (R100). -/
def construct (seed stream : Word64) (s : State) : State :=
  { s with stateReg := seed, inc := stream ||| 1, seeded := true }

/-! ### The raw draw -/

/-- MULT (R6, R7): a constant of the datapath, not a register. -/
def mult : Word64 := 6364136223846793005

/-- Step 1 of R120: `(old *_64 MULT) +_64 INC`. The constant factor stands first so that the kernel, which compares products by
unfolding their second factor, never counts down from it. -/
def advance (inc old : Word64) : Word64 := mult * old + inc

/-- Step 2 of R120: `((old >> 18) ^ old) >> 27`, its low 32 bits. -/
def xorshifted (old : Word64) : Word32 := (((old >>> 18) ^^^ old) >>> 27).setWidth 32

/-- Step 3 of R120: the top 5 bits of the pre-advance state (R124). -/
def rotAmount (old : Word64) : Nat := (old >>> 59).toNat

/-- Steps 2 to 4 of R120: the 32-bit output of the pre-advance state. -/
def output (old : Word64) : Word32 := rotr32 (xorshifted old) (rotAmount old)

/-- `Draw()` (R120): the output of the state before, and the state with STATE advanced and the draw counted. -/
def draw (s : State) : Word32 × State :=
  (output s.stateReg,
   { s with stateReg := advance s.inc s.stateReg, work := { s.work with draws := s.work.draws + 1 } })

/-! ### The retry loop -/

/-- The fuel of a retry loop: 2^64 draws (D34). -/
def retryFuel : Nat := 2 ^ 64

/-- `loop r <- Draw() until accept r` with fuel. -/
def drawUntil (accept : Word32 → Bool) : Nat → State → Option (Word32 × State)
  | 0, _ => none
  | fuel + 1, s =>
    let d := draw s
    let s' := { d.2 with work := { d.2.work with cur := d.1 } }
    if accept d.1 then some (d.1, s') else drawUntil accept fuel s'

/-- A value-producing command's end: completion with RESULT in its format (R73), or the fault of D34. -/
def finishValue (format : Word32 → Word64) : Option (Word32 × State) → Result
  | some (v, s) => .next (completeValue (format v) s)
  | none => .fault .retryExhausted

/-! ### The buffer memory -/

/-- One byte write of FILL: an address and a byte (R52). -/
abbrev ByteWrite := Word64 × Byte

/-- Is the address in the region? Addresses are plain 64-bit numbers; a region does not wrap. -/
def Region.contains (r : Region) (a : Word64) : Bool := decide (r.base.toNat ≤ a.toNat) && decide (a.toNat < r.base.toNat + r.size)

/-- Does the platform admit a byte write at the address (R52, R59)? -/
def admits (cfg : Config) (a : Word64) : Bool := cfg.buffer.any (Region.contains · a)

/-- The memory after byte writes made in the order listed. -/
def applyWrites : List ByteWrite → Memory → Memory
  | [], m => m
  | (a, v) :: ws, m => applyWrites ws (m.write a.toNat v)

/-- The writes that are still to land: those whose byte no other agent wrote after the FILL did (R244). -/
def notOvertaken (overtaken : List Word64) (ws : List ByteWrite) : List ByteWrite :=
  ws.filter fun w => !overtaken.contains w.1

end Sys2Proof.Machine
end

