-- ==== Sys2Proof/Machine/Draws.lean ====
section
/-! DEFINITION. Machine/Draws.lean: the raw draw and the bounded draw as commands (spec/41_raw_draw.md, spec/42_bounded.md). -/

namespace Sys2Proof.Machine

/-- NEXTU32 (R128): one raw draw. -/
def execNextu32 (s : State) : Result :=
  requireSeeded s fun s => .next (completeValue (zext32 (draw s).1) (draw s).2)

/-- `Thr(max)` for max >= 1 (R141). `0 - max` is 2^32 - max in 32 bits. -/
def threshold (form : ThresholdForm) (max : Word32) : Word32 :=
  match form with
  | .doc => (u32Max - max) % max
  | .ref => (0 - max) % max

/-- `Bounded(max)` (R140): 0 with no draw for max = 0, else the first draw at or above the threshold, modulo max. -/
def boundedDraw (max : Word32) (s : State) : Option (Word32 × State) :=
  if max = 0 then some (0, s)
  else
    let t := threshold s.cfg.thresholdForm max
    (drawUntil (fun r => decide (t ≤ r)) retryFuel { s with work := { s.work with thr := t } }).map
      fun d => (d.1 % max, d.2)

/-- BOUNDED (R146). -/
def execBounded (s : State) : Result :=
  requireSeeded s fun s => finishValue zext32 (boundedDraw (operand0 s) s)

end Sys2Proof.Machine
end

