-- ==== Sys2Proof/Machine/Adapter.lean ====
section
/-! DEFINITION. Machine/Adapter.lean: the derived draws NEXT, BELOW and RANGE (spec/43_adapter.md). -/

namespace Sys2Proof.Machine

/-- NEXT (R150): a raw draw shifted right by 1. -/
def execNext (s : State) : Result :=
  requireSeeded s fun s => .next (completeValue (zext32 ((draw s).1 >>> 1)) (draw s).2)

/-- BELOW (R152): a negative max is INVALID_ARGUMENT before any draw. -/
def execBelow (s : State) : Result :=
  requireSeeded s fun s =>
    if sint32 (operand0 s) < 0 then .next (raiseError .invalidArgument .max (sext32 (operand0 s)) s)
    else finishValue zext32 (boundedDraw (operand0 s) s)

/-- RANGE (R155): min > max is INVALID_ARGUMENT before any draw; min = max gives min without drawing; else a bounded draw below
the unsigned span, plus min. -/
def execRange (s : State) : Result :=
  requireSeeded s fun s =>
    if sint32 (operand0 s) > sint32 (operand1 s) then
      .next (raiseError .invalidArgument .min (sext32 (operand0 s)) s)
    else if sint32 (operand0 s) = sint32 (operand1 s) then .next (completeValue (sext32 (operand0 s)) s)
    else finishValue (fun v => sext32 (v + operand0 s)) (boundedDraw (operand1 s - operand0 s) s)

end Sys2Proof.Machine
end

