-- ==== Sys2Proof/Machine/Construction.lean ====
section
/-! DEFINITION. Machine/Construction.lean: the construction and control commands (spec/40_construction.md). -/

namespace Sys2Proof.Machine

/-- SEED (R101): `Construct(LA0, LA1)`. -/
def execSeed (s : State) : Result :=
  .next (complete (construct (seedOperand s) (streamOperand s) (startCommand s)))

/-- SEEDD (R102): `Construct(LA0, DEFAULT_STREAM)`. -/
def execSeedd (s : State) : Result :=
  .next (complete (construct (seedOperand s) s.cfg.defaultStream (startCommand s)))

/-- SEEDT (R104): `Construct(LT, DEFAULT_STREAM)`. -/
def execSeedt (s : State) : Result :=
  .next (complete (construct (timeOperand s) s.cfg.defaultStream (startCommand s)))

/-- CLRSTAT (R108): OVR becomes 0 at completion. -/
def execClrstat (s : State) : Result :=
  .next (complete { startCommand s with ovr := false })

end Sys2Proof.Machine
end

