-- ==== Sys2Proof/Machine/Fill.lean ====
section
/-! DEFINITION. Machine/Fill.lean: FILL (rules R160 to R163 of spec/43_adapter.md, R52, R53 and R55 of spec/20_memory.md). -/

namespace Sys2Proof.Machine

/-- Bits 8k+7 to 8k of a draw (R53). -/
def drawByte (r : Word32) (k : Nat) : Byte := r.extractLsb' (8 * k) 8

/-- The writes of one draw: its low `count` bytes, least significant first, to `base +_64 (i + k)` (R53, R55). -/
def groupWrites (base : Word64) (i : Nat) (r : Word32) (count : Nat) : List ByteWrite :=
  (List.range count).map fun k => (base + BitVec.ofNat 64 (i + k), drawByte r k)

/-- `while n - i >= 4`: whole groups of four bytes, one draw each; the byte index is in the working registers. -/
def fillGroups (base : Word64) : Nat → State → List ByteWrite × State
  | 0, s => ([], s)
  | groups + 1, s =>
    let d := draw s
    let i := d.2.work.idx
    let rest := fillGroups base groups { d.2 with work := { d.2.work with idx := i + 4 } }
    (groupWrites base i d.1 4 ++ rest.1, rest.2)

/-- FILL's body (R160): the writes it makes in ascending index order, and the state after its draws. The final group's draw is
made when the group is not empty or FILL_EMPTY_TAIL_DRAW = 1 (R163). -/
def fillRun (base : Word64) (n : Nat) (s : State) : List ByteWrite × State :=
  let g := fillGroups base (n / 4) s
  if n % 4 > 0 || s.cfg.fillEmptyTailDraw then
    let d := draw g.2
    (g.1 ++ groupWrites base g.2.work.idx d.1 (n % 4), d.2)
  else g

/-- FILL (R160). An absent buffer is NULL_BUFFER before any draw or write. Where the platform refuses one of the writes the
block has no step: the command stays BUSY with nothing completed (R52); where it admits all, they have all been made at
completion (R62), but for bytes another agent wrote after the FILL did (R244). -/
def execFill (present : Bool) (s : State) : Result :=
  requireSeeded s fun s₀ =>
    if present then
      let r := fillRun (fillBase s₀) (fillLength s₀) s₀
      if r.1.all (fun w => admits s.cfg w.1) then
        .next (complete { r.2 with mem := applyWrites (notOvertaken s.overtaken r.1) s.mem })
      else .next s
    else .next (raiseError .nullBuffer .buffer 0 s₀)

end Sys2Proof.Machine
end

