-- ==== Sys2Proof/Machine/Sample.lean ====
section
/-! DEFINITION. Machine/Sample.lean: SAMPLE (rule R170) and its binary64 product in the integer-only form of rule R172. -/

namespace Sys2Proof.Machine

/-- The bit length of a number (R172's L). -/
def bitLength (n : Nat) : Nat := if n = 0 then 0 else Nat.log2 n + 1

/-- R172: a positive value `p × 2^-64` rounded to 53 significant bits, ties to even, as (q, s) with the value q × 2^(s - 64). -/
def roundTo53 (p : Nat) : Nat × Nat :=
  let l := bitLength p
  if l ≤ 53 then (p, 0)
  else
    let s := l - 53
    let q := p / 2 ^ s
    let rem := p % 2 ^ s
    let half := 2 ^ (s - 1)
    let q := if rem > half ∨ (rem = half ∧ q % 2 = 1) then q + 1 else q
    if q = 2 ^ 53 then (2 ^ 52, s + 1) else (q, s)

/-- R172: the normal binary64 of q × 2^(s - 64): sign 0, biased exponent (bit length of q) - 1 + s - 64 + 1023, and q without its
leading 1, left-aligned to 52 bits. -/
def encodeBinary64 (q s : Nat) : Word64 :=
  let l := bitLength q
  BitVec.ofNat 64 ((l + s + 958) * 2 ^ 52 + (q - 2 ^ (l - 1)) * 2 ^ (53 - l))

/-- `bits64(fl64(r × C))` (R171, R172): r × C is exactly r × (2^32 + 1) × 2^-64; r = 0 gives +0.0. -/
def sampleBits (r : Word32) : Word64 :=
  if r = 0 then 0
  else
    let qs := roundTo53 (r.toNat * (2 ^ 32 + 1))
    encodeBinary64 qs.1 qs.2

/-- SAMPLE (R170): the first draw that is not U32_MAX, times C. -/
def execSample (s : State) : Result :=
  requireSeeded s fun s => finishValue sampleBits (drawUntil (fun r => decide (r ≠ u32Max)) retryFuel s)

end Sys2Proof.Machine
end

