-- ==== Sys2Proof/Machine/Dispatch.lean ====
section
/-! DEFINITION. Machine/Dispatch.lean: one arm per command, each a direct call of its meaning. -/

namespace Sys2Proof.Machine

/-- `Exec(cmd, a0, a1, t)` of rule R13, the operands being the latched values of the state. -/
def exec (i : Instr) (s : State) : Host.Outcome State Fault Refusal :=
  match i with
  | .seed => Sys2Proof.Machine.execSeed s
  | .seedd => Sys2Proof.Machine.execSeedd s
  | .seedt => Sys2Proof.Machine.execSeedt s
  | .clrstat => Sys2Proof.Machine.execClrstat s
  | .nextu32 => Sys2Proof.Machine.execNextu32 s
  | .bounded => Sys2Proof.Machine.execBounded s
  | .next => Sys2Proof.Machine.execNext s
  | .below => Sys2Proof.Machine.execBelow s
  | .range => Sys2Proof.Machine.execRange s
  | .fill present => Sys2Proof.Machine.execFill present s
  | .sample => Sys2Proof.Machine.execSample s

end Sys2Proof.Machine
end

