-- ==== Sys2Proof/Machine/Block.lean ====
section
/-! DEFINITION. Machine/Block.lean: the block's turn, in which a running command completes (rules R203, R205 and R207 of
spec/60_exceptions.md). -/

namespace Sys2Proof.Machine

/-- The running command: an illegal word completes with ILLEGAL_CMD, ahead of every other check (R74, R203); a legal one is
executed. -/
def runCommand (s : State) : Result :=
  match decode s.lcmd with
  | .legal i => exec i s
  | .illegal _ => .next (raiseError .illegalCmd .noParam 0 s)

/-- The block's turn: a BUSY block runs its command, an idle one holds all of its state (R215). -/
def blockTurn (s : State) : Result := if s.busy then runCommand s else .next s

end Sys2Proof.Machine
end

