-- ==== Sys2Proof/Machine/Platform.lean ====
section
/-! DEFINITION. Machine/Platform.lean: the reset input (rules R230 and R231 of spec/70_reset_and_hazards.md) and other agents'
accesses to the buffer memory (R62 of spec/20_memory.md, R244). -/

namespace Sys2Proof.Machine

/-- The leading writes that the platform admits: a refused write is where a FILL is stuck (R52). -/
def admittedPrefix (cfg : Config) (ws : List ByteWrite) : List ByteWrite := ws.takeWhile fun w => admits cfg w.1

/-- The byte writes the running command makes before its completion and that may land at any time while BUSY = 1: those of a
FILL with a buffer on a constructed engine (R160), up to the first the platform refuses. -/
def pendingWrites (s : State) : List ByteWrite :=
  if s.busy && s.seeded && decide (decode s.lcmd = .legal (.fill true)) then
    notOvertaken s.overtaken
      (admittedPrefix s.cfg (fillRun (fillBase s) (fillLength s) (startCommand s)).1)
  else []

/-- The byte a pending write puts at an address, if there is one. -/
def pendingByte (s : State) (a : Word64) : Option Byte := (pendingWrites s).lookup a

/-- The writes of a list that a free value says had landed (R231). -/
def landedWrites (choice : Nat → Bool) : Nat → List ByteWrite → List ByteWrite
  | _, [] => []
  | k, w :: ws => if choice k then w :: landedWrites choice (k + 1) ws else landedWrites choice (k + 1) ws

/-- Reset (R230): every piece of the block's state takes its reset value. A running command is abandoned; of a FILL's byte
writes any subset may have landed (R231). The buffer memory, the parameters and the other agents are not the block's. -/
def resetBlock (s : State) : State :=
  { State.reset with
    mem := applyWrites (landedWrites (Config.freeLanded s.freeIdx) 0 (pendingWrites s)) s.mem
    cfg := s.cfg, time := s.time, events := s.events, portData := s.portData, bufData := s.bufData
    freeIdx := s.freeIdx + 1 }

/-- The byte another agent finds in the buffer memory when no FILL is about to write it. -/
def bufferByte (s : State) (a : Word64) : Byte := (s.mem.read a.toNat).getD (Config.bufferInit a)

/-- Another agent reads a byte: in the range of a running FILL it "may see old or new bytes" (R244). -/
def bufferRead (a : Word64) (s : State) : State :=
  match pendingByte s a with
  | none => { s with bufData := some (bufferByte s a) }
  | some new =>
    { s with
      bufData := some (if Config.freeRace s.freeIdx then new else bufferByte s a)
      freeIdx := s.freeIdx + 1 }

/-- Another agent writes a byte: in the range of a running FILL it "may be overwritten by the FILL or not" (R244). -/
def bufferWrite (a : Word64) (v : Byte) (s : State) : State :=
  match pendingByte s a with
  | none => { s with mem := s.mem.write a.toNat v }
  | some _ =>
    { s with
      mem := s.mem.write a.toNat v
      overtaken := if Config.freeRace s.freeIdx then a :: s.overtaken else s.overtaken
      freeIdx := s.freeIdx + 1 }

end Sys2Proof.Machine
end

