-- ==== Sys2Proof/Machine/Flags.lean ====
section
/-! DEFINITION. Machine/Flags.lean: the STATUS word (rules R28, R33, R34 and R200). -/

namespace Sys2Proof.Machine

/-- The code of STATUS.ERR (R200). -/
def ErrCode.code : ErrCode → BitVec 4
  | .noError => 0
  | .invalidArgument => 1
  | .nullBuffer => 2
  | .illegalCmd => 3
  | .unseeded => 4

/-- The code of STATUS.PARAM (R34). -/
def Param.code : Param → BitVec 2
  | .noParam => 0
  | .max => 1
  | .min => 2
  | .buffer => 3

/-- STATUS (R28): BUSY bit 0, SEEDED bit 1, OVR bit 2, bit 3 reserved, ERR bits 7:4, PARAM bits 9:8, bits 31:10 reserved. The
reserved bits read 0 (R33). -/
def statusWord (s : State) : Word32 :=
  (0 : BitVec 22) ++ s.param.code ++ s.err.code ++ (0 : BitVec 1) ++ BitVec.ofBool s.ovr ++ BitVec.ofBool s.seeded
    ++ BitVec.ofBool s.busy

end Sys2Proof.Machine
end

