-- ==== Sys2Proof/Machine/Port.lean ====
section
/-! DEFINITION. Machine/Port.lean: the host register port (rules R26 to R33 of spec/10_state.md, R56 to R58 of
spec/20_memory.md, R206 of spec/60_exceptions.md). -/

namespace Sys2Proof.Machine

/-- The registers of the port (R26). -/
inductive PortReg where
  | cmd
  | status
  | arg0
  | arg1
  | result
  | errval
  | draws
  deriving DecidableEq, Repr

/-- A register's offset (R26). -/
def PortReg.offset : PortReg → Word64
  | .cmd => 0x00
  | .status => 0x04
  | .arg0 => 0x08
  | .arg1 => 0x10
  | .result => 0x18
  | .errval => 0x20
  | .draws => 0x28

/-- A register's width in bits, the only access width it accepts (R26, R56). -/
def PortReg.width : PortReg → Nat
  | .cmd => 32
  | .status => 32
  | .arg0 => 64
  | .arg1 => 64
  | .result => 64
  | .errval => 64
  | .draws => 64

/-- The registers in the order of their offsets. -/
def portRegs : List PortReg := [.cmd, .status, .arg0, .arg1, .result, .errval, .draws]

/-- The register an access of a width reaches at an offset from PORT_BASE; `none` where the access is refused (R56). -/
def portSelect (offset : Word64) (width : Nat) : Option PortReg :=
  portRegs.find? fun r => decide (r.offset = offset ∧ r.width = width)

/-- What a read of a register returns, in its low bits; CMD reads 0 (R26, R27). -/
def portValue (s : State) : PortReg → Word64
  | .cmd => 0
  | .status => zext32 (statusWord s)
  | .arg0 => s.arg0
  | .arg1 => s.arg1
  | .result => s.result
  | .errval => s.errval
  | .draws => s.draws

/-- A read of a register has no effect on the block (R58). -/
def portRead (r : PortReg) (s : State) : State := { s with portData := some (portValue s r) }

/-- A write of a register: CMD issues a command or, while BUSY, is dropped and sets OVR (R27, R206); ARG0 and ARG1 take the
value (R29); the read-only registers ignore it (R33). -/
def portWrite (r : PortReg) (data : Word64) (s : State) : State :=
  match r with
  | .cmd => if s.busy then { s with ovr := true } else issue (low32 data) s
  | .status => s
  | .arg0 => { s with arg0 := data }
  | .arg1 => { s with arg1 := data }
  | .result => s
  | .errval => s
  | .draws => s

/-- One access of the port at a platform address: it reaches the register at that offset from PORT_BASE with that width, or it
is refused and has no step (R26, R56). -/
def portAccess (a : Access) (s : State) : Result :=
  match a with
  | .read addr width =>
    match portSelect (addr - s.cfg.portBase) width with
    | some r => .next (portRead r s)
    | none => .refused (.portAccess addr width)
  | .write addr width data =>
    match portSelect (addr - s.cfg.portBase) width with
    | some r => .next (portWrite r data s)
    | none => .refused (.portAccess addr width)

end Sys2Proof.Machine
end

