-- ==== Sys2Proof/Machine/Agents.lean ====
section
/-! DEFINITION. Machine/Agents.lean: what one event of `State.events` does (the interfaces of rule R38 of spec/10_state.md, the
poll loop of R77 of spec/30_encoding.md). -/

namespace Sys2Proof.Machine

/-- One move of the poll loop `L: rd STATUS; if STATUS[0] = 1 goto L` (R77). While BUSY = 1 the loop goes on, and the block has
its turn between two polls (weak fairness, R247); with BUSY = 0 the poll is the last. -/
def pollStatus (s : State) : Result :=
  let polled := portRead .status s
  if s.busy then blockTurn { polled with events := .wait :: s.events } else .next polled

/-- One event, on a state from whose list it has been taken. -/
def takeEvent (e : Event) (s : State) : Result :=
  match e with
  | .access a => portAccess a s
  | .wait => pollStatus s
  | .block => blockTurn s
  | .driveTime t => .next { s with time := t }
  | .reset => .next (resetBlock s)
  | .bufRead a => .next (bufferRead a s)
  | .bufWrite a v => .next (bufferWrite a v s)

/-- The machine's next move: the next event if there is one; with none left, a running command completes (R247: a BUSY block
"eventually completes its command") and an idle block stays as it is (R215). -/
def move (s : State) : Result :=
  match s.events with
  | [] => blockTurn s
  | e :: rest => takeEvent e { s with events := rest }

end Sys2Proof.Machine
end

