-- ==== Sys2Proof/Machine/Step.lean ====
section
/-! DEFINITION. Machine/Step.lean: one step of the machine, and placing a command as the very next thing to run. -/

namespace Sys2Proof.Machine

/-- One step (spec/10_state.md R36: the program is the host's sequence of commands). -/
def step (s : State) : Host.Outcome State Fault Refusal := move s

/-- The state right after the issue of a command word (R27), with the block's turn next: the block does not fetch, and a host's
CMD write is how a command comes to run (log entry 7). -/
def State.withFetchWord (s : State) (nbits w : Nat) : State :=
  { issue (tableWord nbits w) s with events := .block :: s.events }

end Sys2Proof.Machine
end

