-- ==== Sys2Proof/Machine/Assembler.lean ====
section
/-! DEFINITION. Machine/Assembler.lean: the host-level syntax and the pseudo-instructions (rules R77 and R78 of
spec/30_encoding.md). -/

namespace Sys2Proof.Machine

/-- The primitive operations of R77; `cmd imm32` is `wr CMD, imm32`. -/
inductive HostOp where
  | wr (reg : PortReg) (imm : Int)
  | rd (reg : PortReg)
  | wait
  deriving DecidableEq, Repr

/-- `cmd imm32` (R77). -/
def HostOp.cmd (word : Int) : HostOp := .wr .cmd word

/-- The pseudo-instructions of R78. `fillNull n` is `fill null, n`. -/
inductive Pseudo where
  | seed (s t : Int)
  | seedd (s : Int)
  | seedt
  | clrstat
  | nextu32
  | bounded (m : Int)
  | next
  | below (m : Int)
  | range (a b : Int)
  | fill (base n : Int)
  | fillNull (n : Int)
  | sample
  deriving DecidableEq, Repr

/-- An operand in [0, 2^64). -/
def isU64 (x : Int) : Bool := decide (0 ≤ x) && decide (x < 2 ^ 64)

/-- An operand in [0, 2^32). -/
def isU32 (x : Int) : Bool := decide (0 ≤ x) && decide (x < 2 ^ 32)

/-- An operand in [-2^31, 2^31). -/
def isI32 (x : Int) : Bool := decide (-2 ^ 31 ≤ x) && decide (x < 2 ^ 31)

/-- The operand ranges of R78. -/
def Pseudo.inRange : Pseudo → Bool
  | .seed s t => isU64 s && isU64 t
  | .seedd s => isU64 s
  | .seedt => true
  | .clrstat => true
  | .nextu32 => true
  | .bounded m => isU32 m
  | .next => true
  | .below m => isI32 m
  | .range a b => isI32 a && isI32 b
  | .fill base n => isU64 base && isU32 n
  | .fillNull n => isU32 n
  | .sample => true

/-- The expansions of R78. -/
def Pseudo.expansion : Pseudo → List HostOp
  | .seed s t => [.wr .arg0 s, .wr .arg1 t, .cmd 0x00000001, .wait]
  | .seedd s => [.wr .arg0 s, .cmd 0x00000002, .wait]
  | .seedt => [.cmd 0x00000003, .wait]
  | .clrstat => [.cmd 0x00000008, .wait]
  | .nextu32 => [.cmd 0x00000010, .wait, .rd .result]
  | .bounded m => [.wr .arg0 m, .cmd 0x00000011, .wait, .rd .result]
  | .next => [.cmd 0x00000012, .wait, .rd .result]
  | .below m => [.wr .arg0 m, .cmd 0x00000013, .wait, .rd .result]
  | .range a b => [.wr .arg0 a, .wr .arg1 b, .cmd 0x00000014, .wait, .rd .result]
  | .fill base n => [.wr .arg0 base, .wr .arg1 n, .cmd 0x00000115, .wait]
  | .fillNull n => [.wr .arg1 n, .cmd 0x00000015, .wait]
  | .sample => [.cmd 0x00000016, .wait, .rd .result]

/-- Assembling a pseudo-instruction: "an out-of-range operand is an assembly error" (R78), here `none`. -/
def assemble (p : Pseudo) : Option (List HostOp) := if p.inRange then some p.expansion else none

/-- The event of a host operation for a port at `base`. A negative literal written to a 64-bit register is written as its 64-bit
two's complement (R77). DESIGN CHOICE (log entry 26): R77 gives `wr` no range and no check; a literal of 2^64 or more
is taken modulo 2^64, and one to a 32-bit register that is negative or 2^32 or more is data of which the port uses the low
half. -/
def HostOp.event (base : Word64) : HostOp → Event
  | .wr r imm => .access (.write (base + r.offset) r.width (BitVec.ofInt 64 imm))
  | .rd r => .access (.read (base + r.offset) r.width)
  | .wait => .wait

end Sys2Proof.Machine
end

