-- ==== Sys2Proof/Safety.lean ====
section
/-! DEFINITION. Safety.lean: the terms claims are stated in: the draws a state is about to make, how a command ends, what it
leaves alone, and the invariant of a safe run. -/

namespace Sys2Proof

/-! ### Commands by kind -/

/-- The commands that load STATE and INC (R106). -/
def Instr.isConstruction : Instr → Bool
  | .seed | .seedd | .seedt => true
  | .clrstat | .nextu32 | .bounded | .next | .below | .range | .fill _ | .sample => false

/-- The drawing commands, OPCODE 0x10 to 0x16 (R200, R232). -/
def Instr.isDrawing : Instr → Bool
  | .seed | .seedd | .seedt | .clrstat => false
  | .nextu32 | .bounded | .next | .below | .range | .fill _ | .sample => true

end Sys2Proof

namespace Sys2Proof.Machine

/-! ### The sequence of draws -/

/-- STATE after `k` further draws: `k` times the advance of R120, with the state's INC. -/
def State.lcgAfter (s : State) (k : Nat) : Word64 := (advance s.inc)^[k] s.stateReg

/-- The draw after `k` further draws (the next one for `k = 0`). -/
def State.drawAt (s : State) (k : Nat) : Word32 := output (s.lcgAfter k)

/-- The draw after `k` rejected ones is the first that a retry loop accepts. -/
def FirstAccepted (s : State) (accept : Word32 → Prop) (k : Nat) : Prop :=
  accept (s.drawAt k) ∧ ∀ j, j < k → ¬accept (s.drawAt j)

/-- `Bounded(max)` is `v` after `k` draws (R140). -/
def BoundedGives (s : State) (max v : Word32) (k : Nat) : Prop :=
  (max = 0 ∧ v = 0 ∧ k = 0) ∨
    (max ≠ 0 ∧ ∃ j, FirstAccepted s (threshold s.cfg.thresholdForm max ≤ ·) j ∧ v = s.drawAt j % max ∧ k = j + 1)

/-- Byte `i` of a FILL: byte (i mod 4) of the (i div 4 + 1)-th draw (R161). -/
def State.fillByteAt (s : State) (i : Nat) : Byte := BitVec.ofNat 8 ((s.drawAt (i / 4)).toNat / 256 ^ (i % 4))

/-- The address of byte `i` of a FILL: `base +_64 i` (R55). -/
def State.fillAddr (s : State) (i : Nat) : Word64 := s.la0 + BitVec.ofNat 64 i

/-- FILL's draw count for `n` bytes (R162). -/
def fillDraws (cfg : Config) (n : Nat) : Nat := if cfg.fillEmptyTailDraw then n / 4 + 1 else (n + 3) / 4

/-! ### What a command leaves alone -/

/-- The engine is as before: STATE, INC and SEEDED. -/
def EngineKept (s t : State) : Prop := t.stateReg = s.stateReg ∧ t.inc = s.inc ∧ t.seeded = s.seeded

/-- Every byte of the buffer memory reads as before. -/
def MemoryKept (s t : State) : Prop := ∀ a, t.mem.read a = s.mem.read a

/-- ARG0, ARG1, the latches, the parameters and everything outside the block are as before. -/
def SurroundingsKept (s t : State) : Prop :=
  t.arg0 = s.arg0 ∧ t.arg1 = s.arg1 ∧ t.lcmd = s.lcmd ∧ t.la0 = s.la0 ∧ t.la1 = s.la1 ∧ t.lt = s.lt ∧ t.cfg = s.cfg ∧
    t.time = s.time ∧ t.events = s.events ∧ t.portData = s.portData ∧ t.bufData = s.bufData ∧ t.freeIdx = s.freeIdx

/-- The registers that change only at a completion (R28): ERR, PARAM, ERRVAL, RESULT and DRAWS. -/
def ReportsKept (s t : State) : Prop :=
  t.err = s.err ∧ t.param = s.param ∧ t.errval = s.errval ∧ t.result = s.result ∧ t.draws = s.draws

/-! ### How a command ends -/

/-- The completion report of a command without error that made `k` draws (R204). -/
def ReportsSuccess (t : State) (k : Nat) : Prop :=
  t.busy = false ∧ t.err = .noError ∧ t.param = .noParam ∧ t.errval = 0 ∧ t.draws = BitVec.ofNat 64 k

/-- A construction command's end: the engine loaded, nothing else changed but the report (R101). -/
def ConstructionEnds (s t : State) (seed stream : Word64) : Prop :=
  t.stateReg = seed ∧ t.inc = stream ||| 1 ∧ t.seeded = true ∧ ReportsSuccess t 0 ∧ t.result = s.result ∧ t.ovr = s.ovr ∧
    MemoryKept s t ∧ SurroundingsKept s t

/-- A value-producing command's end: RESULT = `v` after `k` draws, nothing else changed but the report (R73, R204). -/
def ValueEnds (s t : State) (v : Word64) (k : Nat) : Prop :=
  t.result = v ∧ t.stateReg = s.lcgAfter k ∧ t.inc = s.inc ∧ t.seeded = s.seeded ∧ ReportsSuccess t k ∧ t.ovr = s.ovr ∧
    MemoryKept s t ∧ SurroundingsKept s t

/-- A command's end in an error: the report, and nothing else changed (R201). -/
def ErrorEnds (s t : State) (code : ErrCode) (param : Param) (value : Word64) : Prop :=
  t.busy = false ∧ t.err = code ∧ t.param = param ∧ t.errval = value ∧ t.draws = 0 ∧ t.result = s.result ∧ t.ovr = s.ovr ∧
    EngineKept s t ∧ MemoryKept s t ∧ SurroundingsKept s t

/-- UNSEEDED (R200): the end of every drawing command while SEEDED = 0. -/
def UnseededEnds (s : State) (i : Instr) : Prop :=
  s.seeded = false → ∃ t, exec i s = .next t ∧ ErrorEnds s t .unseeded .noParam 0

/-! ### Runs -/

/-- The next move is the block's: the list of events is empty or begins with the block's turn or with a poll. -/
def BlockMoves (s : State) : Prop :=
  s.events = [] ∨ (∃ rest, s.events = .block :: rest) ∨ ∃ rest, s.events = .wait :: rest

/-- The next event is a reset. -/
def ResetNext (s : State) : Prop := ∃ rest, s.events = .reset :: rest

/-- The result of a step with `f` done to its next state. -/
def mapNext (f : State → State) : Result → Result
  | .next s => .next (f s)
  | .fault e => .fault e
  | .refused e => .refused e

/-- Executing commands one after another, each with the operands it latched (R13): (command, LA0, LA1, LT). -/
def execAll : List (Instr × Word64 × Word64 × Word64) → State → Result
  | [], s => .next s
  | (i, a0, a1, t) :: rest, s =>
    match exec i { s with la0 := a0, la1 := a1, lt := t } with
    | .next u => execAll rest u
    | .fault e => .fault e
    | .refused e => .refused e

/-- Two states agree on the engine and on the parameters. -/
def SameEngine (s t : State) : Prop :=
  t.stateReg = s.stateReg ∧ t.inc = s.inc ∧ t.seeded = s.seeded ∧ t.cfg = s.cfg

/-- Two states agree on what every completion writes (R204): ERR, PARAM, ERRVAL and DRAWS. -/
def SameErrorReport (s t : State) : Prop :=
  t.err = s.err ∧ t.param = s.param ∧ t.errval = s.errval ∧ t.draws = s.draws

/-! ### The invariant -/

/-- STATUS.ERR, PARAM, ERRVAL and DRAWS are a combination of R200's table. -/
def ErrorReportOk (s : State) : Prop :=
  match s.err with
  | .noError => s.param = .noParam ∧ s.errval = 0
  | .invalidArgument =>
    (s.param = .max ∧ s.errval.msb = true ∨ s.param = .min) ∧ s.errval = sext32 (low32 s.errval) ∧ s.draws = 0 ∧
      s.seeded = true
  | .nullBuffer => s.param = .buffer ∧ s.errval = 0 ∧ s.draws = 0 ∧ s.seeded = true
  | .illegalCmd => s.param = .noParam ∧ s.errval = 0 ∧ s.draws = 0
  | .unseeded => s.param = .noParam ∧ s.errval = 0 ∧ s.draws = 0 ∧ s.seeded = false

/-- The invariant of every run: the memory is canonical; once constructed, INC is odd (R23); the error report is one R200
allows; before construction no command has produced a value or a draw; the working registers are empty between steps and, with
BUSY = 0, no write of a FILL is under way. -/
def Inv (s : State) : Prop :=
  s.mem.wf = true ∧ (s.seeded = true → s.inc.getLsbD 0 = true) ∧ ErrorReportOk s ∧
    (s.seeded = false → s.result = 0 ∧ s.draws = 0) ∧ s.work = Work.idle ∧ (s.busy = false → s.overtaken = [])

/-! ### Binary64 -/

/-- The value of a finite binary64 bit pattern (R12's `bits64`, read backwards). -/
def binary64Value (b : Word64) : ℚ :=
  let e := (b.extractLsb' 52 11).toNat
  let f := (b.extractLsb' 0 52).toNat
  (if b.msb then -1 else 1) *
    (if e = 0 then (f : ℚ) * 2 ^ (-1074 : ℤ) else ((2 ^ 52 + f : ℕ) : ℚ) * 2 ^ ((e : ℤ) - 1075))

/-- Neither an infinity nor a NaN. -/
abbrev Binary64Finite (b : Word64) : Prop := b.extractLsb' 52 11 ≠ 0x7FF

/-- `b` is `bits64(fl64(x))` (R12): no finite binary64 value is nearer to x, and where another is as near, b is the even one. -/
def NearestEven (x : ℚ) (b : Word64) : Prop :=
  Binary64Finite b ∧ ∀ c, Binary64Finite c →
    |binary64Value b - x| ≤ |binary64Value c - x| ∧
      (|binary64Value b - x| = |binary64Value c - x| → binary64Value c ≠ binary64Value b → b.getLsbD 0 = false)

end Sys2Proof.Machine
end

