-- ==== Sys2Proof/WellFormed.lean ====
section
/-! DEFINITION. WellFormed.lean: which field triples are a command word and which are illegal (rule R74), one check per clause,
and which terms of `Instr` are well formed. -/

namespace Sys2Proof

/-- The eleven OPCODE values of rule R71. -/
def assignedOpcodes : List (BitVec 8) :=
  [0x01, 0x02, 0x03, 0x08, 0x10, 0x11, 0x12, 0x13, 0x14, 0x15, 0x16]

/-- R74 (a): RES must be 0. -/
def CmdFields.resOk (f : CmdFields) : Bool := f.res == 0

/-- R74 (b): OPCODE must be one of the eleven assigned values. -/
def CmdFields.opcodeOk (f : CmdFields) : Bool := assignedOpcodes.contains f.opcode

/-- R74 (c): P = 1 only with OPCODE 0x15. -/
def CmdFields.bufferBitOk (f : CmdFields) : Bool := !f.p || f.opcode == 0x15

/-- A field triple is a command exactly when none of R74's clauses holds. -/
def CmdFields.wellFormed (f : CmdFields) : Bool := f.resOk && f.opcodeOk && f.bufferBitOk

/-- Every term of `Instr` is a command of rule R71: the one field any of them has is FILL's P, and both its values are legal
(R75: 0x00000015 and 0x00000115). -/
def Instr.wellFormed : Instr → Bool
  | .seed => true
  | .seedd => true
  | .seedt => true
  | .clrstat => true
  | .nextu32 => true
  | .bounded => true
  | .next => true
  | .below => true
  | .range => true
  | .fill _ => true
  | .sample => true

end Sys2Proof
end

