-- ==== Sys2Proof/Certificates/Slice0/Obligations.lean ====
section
/-! DEFINITION. Certificates/Slice0/Obligations.lean: the statements about the model, in the order of the spec's files. Terms such as
`ValueEnds`, `ErrorEnds` and `Inv` are defined in Sys2Proof/Safety.lean. -/

open Sys2Proof Sys2Proof.Machine

/-! ### Encoding (spec/30_encoding.md) -/

/-- R71's opcode values, word by word, and words R74 calls illegal (V-E10), each refused by its clause. -/
def Obligations.OpcodeWordsDecode : Prop :=
  decode 0x00000001 = .legal .seed ∧ decode 0x00000002 = .legal .seedd ∧ decode 0x00000003 = .legal .seedt ∧
  decode 0x00000008 = .legal .clrstat ∧ decode 0x00000010 = .legal .nextu32 ∧ decode 0x00000011 = .legal .bounded ∧
  decode 0x00000012 = .legal .next ∧ decode 0x00000013 = .legal .below ∧ decode 0x00000014 = .legal .range ∧
  decode 0x00000015 = .legal (.fill false) ∧ decode 0x00000115 = .legal (.fill true) ∧ decode 0x00000016 = .legal .sample ∧
  decode 0x00000000 = .illegal .unassignedOpcode ∧ decode 0x00000017 = .illegal .unassignedOpcode ∧
  decode 0x00000101 = .illegal .bufferBitOutsideFill ∧ decode 0x80000010 = .illegal .reservedBits ∧
  decode 0x00000215 = .illegal .reservedBits

/-- Decoding an encoded well-formed command gives it back, FILL with either value of P. -/
def Obligations.DecodeOfEncode : Prop := ∀ i : Instr, i.wellFormed = true → decode (encode i) = .legal i

/-- Each command has one word: a word decodes to a command exactly when it is that command's encoding (R74, R75). -/
def Obligations.LegalWordIsTheEncoding : Prop := ∀ (w : Word32) (i : Instr), decode w = .legal i ↔ w = encode i

/-- R74: a word is illegal exactly when RES is not 0, or OPCODE is unassigned, or P = 1 outside FILL; the command it issues
completes with ILLEGAL_CMD and changes no engine state. -/
def Obligations.IllegalWordsByClause : Prop :=
  (∀ w : Word32, (∃ why, decode w = .illegal why) ↔
    (w.toNat / 2 ^ 9 ≠ 0 ∨
      w.toNat % 2 ^ 8 ∉ [0x01, 0x02, 0x03, 0x08, 0x10, 0x11, 0x12, 0x13, 0x14, 0x15, 0x16] ∨
      (w.toNat / 2 ^ 8 % 2 = 1 ∧ w.toNat % 2 ^ 8 ≠ 0x15))) ∧
  ∀ s : State, (∃ why, decode s.lcmd = .illegal why) →
    ∃ t, runCommand s = .next t ∧ ErrorEnds s t .illegalCmd .noParam 0

/-- R75: exactly 12 of the 2^32 words are legal, and which command each is. Every other word is illegal. -/
def Obligations.ExactlyTwelveLegalWords : Prop :=
  (Finset.univ.filter fun w : Word32 => (decode w).isLegal = true).card = 12 ∧
  ∀ (w : Word32) (i : Instr), decode w = .legal i ↔
    (w.toNat, i) ∈ [(0x00000001, Instr.seed), (0x00000002, .seedd), (0x00000003, .seedt), (0x00000008, .clrstat),
      (0x00000010, .nextu32), (0x00000011, .bounded), (0x00000012, .next), (0x00000013, .below), (0x00000014, .range),
      (0x00000015, .fill false), (0x00000115, .fill true), (0x00000016, .sample)]

/-- A literal that R78's range admits for BELOW or RANGE reaches the command: the step that takes the event of `wr ARG0, m` or
`wr ARG1, m` (a negative m as its two's complement, R77) replaces that register alone, and the operand a command issued from
there reads, `sint_32` of the latched low half (R72), is m. Issuing the whole expansion of `below m` or `range a, b` leaves the
block running BELOW or RANGE with those operands. The assembler as a definition is log entry 24. -/
def Obligations.SignedLiteralReachesTheCommand : Prop :=
  (∀ (m : Int) (s : State) (rest : List Event) (w : Word32), isI32 m = true →
    (s.events = HostOp.event s.cfg.portBase (.wr .arg0 m) :: rest →
      ∃ v, step s = .next { s with arg0 := v, events := rest } ∧
        sint32 (operand0 (issue w { s with arg0 := v, events := rest })) = m) ∧
    (s.events = HostOp.event s.cfg.portBase (.wr .arg1 m) :: rest →
      ∃ v, step s = .next { s with arg1 := v, events := rest } ∧
        sint32 (operand1 (issue w { s with arg1 := v, events := rest })) = m)) ∧
  (∀ (m : Int) (ops : List HostOp) (s : State) (rest : List Event), assemble (.below m) = some ops → s.busy = false →
    s.events = ops.map (HostOp.event s.cfg.portBase) ++ rest →
    ∃ u, Sys2Proof.core.run 2 s = .next u ∧ u.busy = true ∧ decode u.lcmd = .legal .below ∧ sint32 (operand0 u) = m) ∧
  ∀ (a b : Int) (ops : List HostOp) (s : State) (rest : List Event), assemble (.range a b) = some ops → s.busy = false →
    s.events = ops.map (HostOp.event s.cfg.portBase) ++ rest →
    ∃ u, Sys2Proof.core.run 3 s = .next u ∧ u.busy = true ∧ decode u.lcmd = .legal .range ∧
      sint32 (operand0 u) = a ∧ sint32 (operand1 u) = b

/-! ### Construction and control (spec/40_construction.md) -/

/-- R100: `Construct` sets STATE to the seed and INC to `stream | 1` (bit 0 forced to 1, bits 63:1 the stream's), makes no draw,
and touches nothing else. -/
def Obligations.ConstructLoadsTheEngine : Prop :=
  ∀ (seed stream : Word64) (s : State),
    (construct seed stream s).stateReg = seed ∧ (construct seed stream s).inc.getLsbD 0 = true ∧
    (∀ k, 1 ≤ k → (construct seed stream s).inc.getLsbD k = stream.getLsbD k) ∧
    (construct seed stream s).seeded = true ∧ (construct seed stream s).busy = s.busy ∧ (construct seed stream s).ovr = s.ovr ∧
    (construct seed stream s).work = s.work ∧ (construct seed stream s).overtaken = s.overtaken ∧
    ReportsKept s (construct seed stream s) ∧ MemoryKept s (construct seed stream s) ∧ SurroundingsKept s (construct seed stream s)

/-- R101: SEED, on every state and every operand, constructs from LA0 and LA1; it has no argument error and needs no prior
construction. -/
def Obligations.SeedConstructs : Prop :=
  decode 0x00000001 = .legal .seed ∧
  ∀ s : State, ∃ t, exec .seed s = .next t ∧ ConstructionEnds s t s.la0 s.la1

/-- R102: SEEDD constructs from LA0 and DEFAULT_STREAM, whatever that parameter is. -/
def Obligations.SeeddConstructs : Prop :=
  decode 0x00000002 = .legal .seedd ∧
  ∀ s : State, ∃ t, exec .seedd s = .next t ∧ ConstructionEnds s t s.la0 s.cfg.defaultStream

/-- R104: SEEDT constructs from the latched TIME and DEFAULT_STREAM, whatever both are. -/
def Obligations.SeedtConstructs : Prop :=
  decode 0x00000003 = .legal .seedt ∧
  ∀ s : State, ∃ t, exec .seedt s = .next t ∧ ConstructionEnds s t s.lt s.cfg.defaultStream

/-- R106: a construction command may be issued at any time, and its outcome does not depend on the engine it replaces. -/
def Obligations.ConstructionReplacesTheEngine : Prop :=
  ∀ (i : Instr) (s : State) (x y : Word64) (b : Bool), i.isConstruction = true →
    (∃ t, exec i s = .next t) ∧ exec i { s with stateReg := x, inc := y, seeded := b } = exec i s

/-- R108: CLRSTAT clears OVR at completion, seeded or not, and leaves SEEDED, STATE, INC and RESULT unchanged. -/
def Obligations.ClrstatClearsOverrun : Prop :=
  decode 0x00000008 = .legal .clrstat ∧
  ∀ s : State, ∃ t, exec .clrstat s = .next t ∧ t.ovr = false ∧ ReportsSuccess t 0 ∧ t.result = s.result ∧
    EngineKept s t ∧ MemoryKept s t ∧ SurroundingsKept s t

/-! ### The raw draw (spec/41_raw_draw.md) -/

/-- R120 and R121: `Draw()` returns the output of the pre-advance state, leaves STATE = old × MULT + INC with silent wraparound,
and counts one draw; it writes nothing else. The output is the low 32 bits of ((old >> 18) ^ old) >> 27 rotated right by the top
5 bits of old. -/
def Obligations.DrawAdvancesAndPermutes : Prop :=
  ∀ s : State, ∃ xs : Word32,
    xs.toNat = ((s.stateReg.toNat / 2 ^ 18) ^^^ s.stateReg.toNat) / 2 ^ 27 % 2 ^ 32 ∧
    (draw s).1 = rotr32 xs (s.stateReg.toNat / 2 ^ 59) ∧
    (draw s).2.stateReg.toNat = (s.stateReg.toNat * 6364136223846793005 + s.inc.toNat) % 2 ^ 64 ∧
    (draw s).2.inc = s.inc ∧ (draw s).2.seeded = s.seeded ∧ (draw s).2.busy = s.busy ∧ (draw s).2.ovr = s.ovr ∧
    (draw s).2.work.draws = s.work.draws + 1 ∧
    ReportsKept s (draw s).2 ∧ MemoryKept s (draw s).2 ∧ SurroundingsKept s (draw s).2

/-- R123: xs[j] = old[27+j] ^ old[45+j] for 0 <= j <= 31, bits above 63 being 0. -/
def Obligations.XorshiftBitForm : Prop :=
  ∀ (old : Word64) (j : Nat), j ≤ 31 →
    (xorshifted old).getLsbD j = (old.getLsbD (27 + j) ^^ old.getLsbD (45 + j))

/-- R11: the source's formula is the 32-bit right rotation for every amount in [0, 31], 0 included, and `(-rot) & 31` in place
of `(32 - rot) & 31` gives the same. -/
def Obligations.RotationFormsAgree : Prop :=
  ∀ (x : Word32) (r : Nat), r ≤ 31 →
    rotr32 x r = (x >>> r) ||| (x <<< ((32 - r) &&& 31)) ∧
    (∀ j, j ≤ 31 → (rotr32 x r).getLsbD j = x.getLsbD ((j + r) % 32)) ∧
    rotr32 x r = (x >>> r) ||| (x <<< ((-(r : Int)) % 32).toNat) ∧ rotr32 x 0 = x

/-- R126: the output depends only on old[63:27]. -/
def Obligations.OutputReadsBits63To27 : Prop :=
  ∀ a b : Word64, a.extractLsb' 27 37 = b.extractLsb' 27 37 → output a = output b

/-- R122 and R130: after a construction the first draw depends on the seed alone, and two engines with the same seed have STATE
values after it that differ by the difference of their INC values. -/
def Obligations.FirstDrawDependsOnSeedAlone : Prop :=
  ∀ (seed stream₁ stream₂ : Word64) (s₁ s₂ : State),
    (draw (construct seed stream₁ s₁)).1 = (draw (construct seed stream₂ s₂)).1 ∧
    (draw (construct seed stream₁ s₁)).2.stateReg - (draw (construct seed stream₂ s₂)).2.stateReg =
      (stream₁ ||| 1) - (stream₂ ||| 1)

/-- R127: with INC odd, 2^64 consecutive draws from any state visit every 64-bit value of STATE exactly once, and every 32-bit
output value occurs exactly 2^32 times among them. -/
def Obligations.FullPeriodAndBalance : Prop :=
  ∀ s : State, s.inc.getLsbD 0 = true →
    (∀ old : Word64, ∃! k : Nat, k < 2 ^ 64 ∧ s.lcgAfter k = old) ∧
    ∀ out : Word32, Nat.card { k : Nat // k < 2 ^ 64 ∧ s.drawAt k = out } = 2 ^ 32

/-- R128: NEXTU32 on a constructed engine gives the next draw in RESULT with DRAWS = 1; on an unseeded one it reports UNSEEDED. -/
def Obligations.Nextu32Draws : Prop :=
  decode 0x00000010 = .legal .nextu32 ∧
  ∀ s : State, UnseededEnds s .nextu32 ∧
    (s.seeded = true → ∃ t, exec .nextu32 s = .next t ∧ ValueEnds s t (zext32 (output s.stateReg)) 1)

/-- R24 and R129: engines constructed from the same seed, and from streams that are equal or differ only in bit 0, are the same;
and the same engines, under the same commands and operands, stay the same and report the same ERR, PARAM, ERRVAL, DRAWS and
RESULT, and write the same bytes to the buffer memory, however long the sequence and whatever else the two machines hold. (A
register or a byte of memory that no command of the sequence has written is still the one each machine began with. The bytes are
compared where no write of another agent has overtaken a FILL's, so that the model's `overtaken` of log entry 10 is empty.) -/
def Obligations.EqualEnginesStayEqual : Prop :=
  (∀ (seed stream₁ stream₂ : Word64) (s₁ s₂ : State), s₂.cfg = s₁.cfg → (∀ k, 1 ≤ k → stream₁.getLsbD k = stream₂.getLsbD k) →
    SameEngine (construct seed stream₁ s₁) (construct seed stream₂ s₂)) ∧
  ∀ (cmds : List (Instr × Word64 × Word64 × Word64)) (s₁ s₂ : State), SameEngine s₁ s₂ →
    (∀ t₁, execAll cmds s₁ = .next t₁ → ∃ t₂, execAll cmds s₂ = .next t₂ ∧ SameEngine t₁ t₂ ∧
      (t₂.result = t₁.result ∨ t₁.result = s₁.result ∧ t₂.result = s₂.result) ∧
      (SameErrorReport t₁ t₂ ∨ SameErrorReport s₁ t₁ ∧ SameErrorReport s₂ t₂) ∧
      (s₁.overtaken = [] → s₂.overtaken = [] →
        ∀ a, t₂.mem.read a = t₁.mem.read a ∨ t₁.mem.read a = s₁.mem.read a ∧ t₂.mem.read a = s₂.mem.read a)) ∧
    (∀ f, execAll cmds s₁ = .fault f → execAll cmds s₂ = .fault f)

/-! ### The bounded draw (spec/42_bounded.md) -/

/-- R141: both threshold forms, exactly as numbers, and that each is below max. -/
def Obligations.ThresholdForms : Prop :=
  ∀ max : Word32, max ≠ 0 →
    (threshold .doc max).toNat = (2 ^ 32 - 1 - max.toNat) % max.toNat ∧
    (threshold .ref max).toNat = (2 ^ 32 - max.toNat) % max.toNat ∧
    ∀ form, (threshold form max).toNat < max.toNat

/-- R142: among the accepted draws every result is equally likely under REF; under DOC, for max >= 2, the result t occurs once
more than each other. -/
def Obligations.BoundedBias : Prop :=
  ∀ max v : Word32, v < max →
    Nat.card { r : Word32 // threshold .ref max ≤ r ∧ r % max = v } = (2 ^ 32 - (threshold .ref max).toNat) / max.toNat ∧
    max.toNat ∣ 2 ^ 32 - (threshold .ref max).toNat ∧
    (2 ≤ max → Nat.card { r : Word32 // threshold .doc max ≤ r ∧ r % max = v } =
      (2 ^ 32 - (threshold .doc max).toNat - 1) / max.toNat + if v = threshold .doc max then 1 else 0)

/-- R145: under DOC a power of two has the threshold max - 1 and every max above 2^31 has U32_MAX - max; under REF a power of two
has 0. -/
def Obligations.ThresholdCorners : Prop :=
  (∀ k : Nat, k ≤ 31 → threshold .ref (BitVec.twoPow 32 k) = 0 ∧
    (1 ≤ k → threshold .doc (BitVec.twoPow 32 k) = BitVec.twoPow 32 k - 1)) ∧
  ∀ max : Word32, 0x80000001 ≤ max → threshold .doc max = 0xFFFFFFFF - max

/-- R143: from every STATE with INC odd, the loop of a bounded draw accepts after at most t·2^32 rejected draws, which with the
accepted one is at most 2^64 - 2^32 + 1. -/
def Obligations.BoundedRetryBound : Prop :=
  ∀ (s : State) (max : Word32), s.inc.getLsbD 0 = true → max ≠ 0 →
    ∃ j, FirstAccepted s (threshold s.cfg.thresholdForm max ≤ ·) j ∧
      j ≤ (threshold s.cfg.thresholdForm max).toNat * 2 ^ 32 ∧
      (threshold s.cfg.thresholdForm max).toNat * 2 ^ 32 + 1 ≤ 2 ^ 64 - 2 ^ 32 + 1

/-- R144: Bounded(max) is below max, and 0 for max = 0. -/
def Obligations.BoundedIsBelowMax : Prop :=
  ∀ (max v : Word32) (s t : State), boundedDraw max s = some (v, t) → (max = 0 → v = 0) ∧ (max ≠ 0 → v < max)

/-- R140 and R146: BOUNDED completes from every constructed engine with `Bounded(LA0[31:0])` in RESULT and its draws counted. That
INC is odd is the invariant of R23. -/
def Obligations.BoundedCompletes : Prop :=
  decode 0x00000011 = .legal .bounded ∧
  ∀ s : State, UnseededEnds s .bounded ∧
    (s.seeded = true → s.inc.getLsbD 0 = true →
      ∃ t v k, exec .bounded s = .next t ∧ BoundedGives s (low32 s.la0) v k ∧ ValueEnds s t (zext32 v) k)

/-! ### Derived draws (spec/43_adapter.md) -/

/-- R150: NEXT gives the next draw shifted right by 1, which is at most INT32_MAX. -/
def Obligations.NextDraws : Prop :=
  decode 0x00000012 = .legal .next ∧
  ∀ s : State, UnseededEnds s .next ∧
    (s.seeded = true → ∃ t, exec .next s = .next t ∧
      ValueEnds s t (BitVec.ofNat 64 ((output s.stateReg).toNat / 2)) 1 ∧ t.result.toNat ≤ 0x7FFFFFFF)

/-- R152: BELOW reports a negative max before any draw, and otherwise completes with `Bounded(LA0[31:0])`. -/
def Obligations.BelowCompletes : Prop :=
  decode 0x00000013 = .legal .below ∧
  ∀ s : State, UnseededEnds s .below ∧
    (s.seeded = true → sint32 (low32 s.la0) < 0 →
      ∃ t, exec .below s = .next t ∧ ErrorEnds s t .invalidArgument .max (sext32 (low32 s.la0))) ∧
    (s.seeded = true → 0 ≤ sint32 (low32 s.la0) → s.inc.getLsbD 0 = true →
      ∃ t v k, exec .below s = .next t ∧ BoundedGives s (low32 s.la0) v k ∧ ValueEnds s t (zext32 v) k)

/-- R153: BELOW's results lie in [0, max) for max > 0 and equal 0 for max = 0. -/
def Obligations.BelowInRange : Prop :=
  ∀ s t : State, exec .below s = .next t → t.err = .noError →
    (0 < sint32 (low32 s.la0) → 0 ≤ t.result.toInt ∧ t.result.toInt < sint32 (low32 s.la0)) ∧
    (sint32 (low32 s.la0) = 0 → t.result = 0)

/-- R155: RANGE reports min > max before any draw, gives min without drawing when the two are equal, and otherwise completes with
`Bounded(max - min) + min`, sign-extended. -/
def Obligations.RangeCompletes : Prop :=
  decode 0x00000014 = .legal .range ∧
  ∀ s : State, UnseededEnds s .range ∧
    (s.seeded = true → sint32 (low32 s.la1) < sint32 (low32 s.la0) →
      ∃ t, exec .range s = .next t ∧ ErrorEnds s t .invalidArgument .min (sext32 (low32 s.la0))) ∧
    (s.seeded = true → sint32 (low32 s.la0) = sint32 (low32 s.la1) →
      ∃ t, exec .range s = .next t ∧ ValueEnds s t (sext32 (low32 s.la0)) 0) ∧
    (s.seeded = true → sint32 (low32 s.la0) < sint32 (low32 s.la1) → s.inc.getLsbD 0 = true →
      ∃ t v k, exec .range s = .next t ∧ BoundedGives s (low32 s.la1 - low32 s.la0) v k ∧
        ValueEnds s t (sext32 (v + low32 s.la0)) k)

/-- R156: RANGE's arithmetic is exact: the span is max - min as an integer, adding a value below it to min does not wrap, and
RESULT, read as signed, is in [min, max). -/
def Obligations.RangeIsExact : Prop :=
  ∀ s t : State, sint32 (low32 s.la0) < sint32 (low32 s.la1) →
    ((low32 s.la1 - low32 s.la0).toNat : Int) = sint32 (low32 s.la1) - sint32 (low32 s.la0) ∧
    (∀ v : Word32, (v.toNat : Int) < sint32 (low32 s.la1) - sint32 (low32 s.la0) →
      sint32 (v + low32 s.la0) = sint32 (low32 s.la0) + v.toNat) ∧
    (exec .range s = .next t → t.err = .noError →
      sint32 (low32 s.la0) ≤ t.result.toInt ∧ t.result.toInt < sint32 (low32 s.la1))

/-- R160 to R163 with R53 and R55: FILL of a present buffer whose bytes the platform admits completes; byte i is the draw's byte
R161 names at `base +_64 i`, every other byte of memory is unchanged, RESULT is unchanged, and STATE has advanced by R162's draw
count. An absent buffer is NULL_BUFFER. That a byte another agent wrote after the FILL did stays that agent's (R244)
is the model's `overtaken`, log entry 10. -/
def Obligations.FillCompletes : Prop :=
  decode 0x00000115 = .legal (.fill true) ∧ decode 0x00000015 = .legal (.fill false) ∧
  ∀ s : State, UnseededEnds s (.fill true) ∧ UnseededEnds s (.fill false) ∧
    (s.seeded = true → ∃ t, exec (.fill false) s = .next t ∧ ErrorEnds s t .nullBuffer .buffer 0) ∧
    (s.seeded = true → (∀ i, i < (low32 s.la1).toNat → admits s.cfg (s.fillAddr i) = true) →
      ∃ t, exec (.fill true) s = .next t ∧
        (∀ i, i < (low32 s.la1).toNat → s.fillAddr i ∉ s.overtaken →
          t.mem.read (s.fillAddr i).toNat = some (s.fillByteAt i)) ∧
        (∀ a, (∀ i, i < (low32 s.la1).toNat → s.fillAddr i ∉ s.overtaken → (s.fillAddr i).toNat ≠ a) →
          t.mem.read a = s.mem.read a) ∧
        ReportsSuccess t (fillDraws s.cfg (low32 s.la1).toNat) ∧
        t.stateReg = s.lcgAfter (fillDraws s.cfg (low32 s.la1).toNat) ∧
        t.inc = s.inc ∧ t.seeded = s.seeded ∧ t.ovr = s.ovr ∧ t.result = s.result ∧ SurroundingsKept s t)

/-- R52: a FILL one of whose writes the platform does not admit has no step: the command stays BUSY and never completes, however
many steps the machine takes. That the model answers the same state as a next state is log entry 11. -/
def Obligations.RefusedFillIsStuck : Prop :=
  ∀ s : State, s.busy = true → s.seeded = true → decode s.lcmd = .legal (.fill true) →
    (∃ i, i < (low32 s.la1).toNat ∧ admits s.cfg (s.fillAddr i) = false) →
    exec (.fill true) s = .next s ∧ (s.events = [] → ∀ k, Sys2Proof.core.run k s = .next s)

/-- R170: SAMPLE completes from every constructed engine with the bits of the first draw that is not U32_MAX times C
(`SampleRoundsToNearestEven` says what those bits are). -/
def Obligations.SampleCompletes : Prop :=
  decode 0x00000016 = .legal .sample ∧
  ∀ s : State, UnseededEnds s .sample ∧
    (s.seeded = true → s.inc.getLsbD 0 = true →
      ∃ t j, exec .sample s = .next t ∧ FirstAccepted s (· ≠ 0xFFFFFFFF) j ∧ ValueEnds s t (sampleBits (s.drawAt j)) (j + 1))

/-- R171: C = 2^-32 + 2^-64, bits 0x3DF0000000100000, is the binary64 value nearest to 1 / U32_MAX; and for r = 0x00FC4F14
multiplying by it differs from dividing by U32_MAX. -/
def Obligations.SampleConstant : Prop :=
  binary64Value 0x3DF0000000100000 = 2 ^ (-32 : ℤ) + 2 ^ (-64 : ℤ) ∧
  NearestEven (1 / 4294967295) 0x3DF0000000100000 ∧
  sampleBits 0x00FC4F14 = 0x3F6F89E2801F89E2 ∧ NearestEven (0x00FC4F14 / 4294967295) 0x3F6F89E2801F89E3

/-- R170 to R172: the integer-only form is the product r × C rounded to the nearest binary64 value, ties to even, for every
32-bit r. -/
def Obligations.SampleRoundsToNearestEven : Prop :=
  ∀ r : Word32, NearestEven ((r.toNat : ℚ) * binary64Value 0x3DF0000000100000) (sampleBits r)

/-- R173: SAMPLE's result is in [0, 1 - 2^-32]; the largest accepted draw reaches the upper end, and U32_MAX would give 1.0. -/
def Obligations.SampleIsBelowOne : Prop :=
  (∀ r : Word32, r ≠ 0xFFFFFFFF →
    0 ≤ binary64Value (sampleBits r) ∧ binary64Value (sampleBits r) ≤ 1 - 2 ^ (-32 : ℤ)) ∧
  binary64Value (sampleBits 0xFFFFFFFE) = 1 - 2 ^ (-32 : ℤ) ∧ binary64Value (sampleBits 0xFFFFFFFF) = 1

/-- R174: from every STATE with INC odd, SAMPLE's loop accepts after at most 2^32 rejected draws. -/
def Obligations.SampleRetryBound : Prop :=
  ∀ s : State, s.inc.getLsbD 0 = true → ∃ j, FirstAccepted s (· ≠ 0xFFFFFFFF) j ∧ j ≤ 2 ^ 32

/-! ### The state and the register port (spec/10_state.md, spec/20_memory.md) -/

/-- R20, R22 and R25: only a construction command or reset changes INC or SEEDED, and only those or a drawing command change
STATE. -/
def Obligations.OnlyCommandsChangeTheEngine : Prop :=
  ∀ s t : State, step s = .next t → ¬ResetNext s →
    (t.inc ≠ s.inc ∨ t.seeded ≠ s.seeded →
      s.busy = true ∧ BlockMoves s ∧ ∃ i, decode s.lcmd = .legal i ∧ i.isConstruction = true) ∧
    (t.stateReg ≠ s.stateReg →
      s.busy = true ∧ BlockMoves s ∧ ∃ i, decode s.lcmd = .legal i ∧ (i.isConstruction = true ∨ i.isDrawing = true))

/-- R25: while SEEDED = 0 no rule reads STATE or INC: a step from two states that differ only there gives states that differ only
there. -/
def Obligations.UnseededEngineIsNeverRead : Prop :=
  ∀ (s : State) (x y : Word64), s.seeded = false →
    (∀ t, step s = .next t → ∃ x' y', step { s with stateReg := x, inc := y } = .next { t with stateReg := x', inc := y' }) ∧
    (∀ r, step s = .refused r → step { s with stateReg := x, inc := y } = .refused r)

/-- R27, R37 and R205: a CMD write accepted while BUSY = 0 latches the word, ARG0, ARG1 and TIME and sets BUSY; nothing of the
command has happened yet. TIME is latched as it is driven, and is a free value where it is not (log entry 3). -/
def Obligations.CmdWriteIssues : Prop :=
  ∀ (s : State) (data : Word64) (rest : List Event), s.busy = false →
    s.events = .access (.write s.cfg.portBase 32 data) :: rest →
    ∃ t, step s = .next t ∧ t.busy = true ∧ t.lcmd = low32 data ∧ t.la0 = s.arg0 ∧ t.la1 = s.arg1 ∧
      (∀ v, s.time = some v → t.lt = v) ∧ (s.time = none → t.lt = Config.freeTime s.freeIdx) ∧
      EngineKept s t ∧ ReportsKept s t ∧ t.ovr = s.ovr ∧ MemoryKept s t ∧ t.arg0 = s.arg0 ∧ t.arg1 = s.arg1 ∧
      t.cfg = s.cfg ∧ t.time = s.time ∧ t.portData = s.portData ∧ t.bufData = s.bufData ∧ t.events = rest

/-- R206: a CMD write while BUSY = 1 is dropped and sets OVR, and nothing else changes; OVR stays 1 until a CLRSTAT completes or
reset. -/
def Obligations.OverrunIsSticky : Prop :=
  (∀ (s : State) (data : Word64) (rest : List Event), s.busy = true →
    s.events = .access (.write s.cfg.portBase 32 data) :: rest → step s = .next { s with ovr := true, events := rest }) ∧
  ∀ s t : State, step s = .next t → s.ovr = true → t.ovr = false →
    ResetNext s ∨ (s.busy = true ∧ BlockMoves s ∧ decode s.lcmd = .legal .clrstat)

/-- R29 and R65: ARG0 and ARG1 written while a command runs change those registers and not the command. -/
def Obligations.RunningCommandIgnoresArgWrites : Prop :=
  ∀ (s : State) (x y : Word64),
    runCommand { s with arg0 := x, arg1 := y } = mapNext (fun t => { t with arg0 := x, arg1 := y }) (runCommand s)

/-- R28 and R33: the fields of STATUS, bit by bit; the reserved bits read 0. -/
def Obligations.StatusFields : Prop :=
  ∀ s : State,
    (statusWord s).getLsbD 0 = s.busy ∧ (statusWord s).getLsbD 1 = s.seeded ∧ (statusWord s).getLsbD 2 = s.ovr ∧
    (statusWord s).getLsbD 3 = false ∧
    ((statusWord s).extractLsb' 4 4).toNat =
      (match s.err with | .noError => 0 | .invalidArgument => 1 | .nullBuffer => 2 | .illegalCmd => 3 | .unseeded => 4) ∧
    ((statusWord s).extractLsb' 8 2).toNat = (match s.param with | .noParam => 0 | .max => 1 | .min => 2 | .buffer => 3) ∧
    (statusWord s).extractLsb' 10 22 = 0

/-- R28 and R207: ERR, PARAM, ERRVAL, RESULT and DRAWS change only at the completion of a command (or at reset); until then a
host reads the previous values. -/
def Obligations.ReportsChangeOnlyAtCompletion : Prop :=
  ∀ s t : State, step s = .next t → ¬ResetNext s → ¬(s.busy = true ∧ t.busy = false) → ReportsKept s t ∧ EngineKept s t

/-- R56: an access reaches a register exactly when it is at the register's offset and of its width; any other is refused and has
no step. The model's choices: that a refused access ends the run under a name is log entry 12, the offset modulo 2^64 is log
entry 17, and that nothing else is ever refused rests on log entries 11 (a stuck FILL is a next state) and 12. -/
def Obligations.PortAcceptsExactlyItsRegisters : Prop :=
  (∀ (s : State) (a : Access) (rest : List Event), s.events = .access a :: rest →
    let addr := match a with | .read x _ => x | .write x _ _ => x
    let width := match a with | .read _ w => w | .write _ w _ => w
    let offset := (addr - s.cfg.portBase).toNat
    (((offset = 0x00 ∨ offset = 0x04) ∧ width = 32 ∨
        (offset = 0x08 ∨ offset = 0x10 ∨ offset = 0x18 ∨ offset = 0x20 ∨ offset = 0x28) ∧ width = 64) →
      ∃ t, step s = .next t) ∧
    (¬((offset = 0x00 ∨ offset = 0x04) ∧ width = 32 ∨
        (offset = 0x08 ∨ offset = 0x10 ∨ offset = 0x18 ∨ offset = 0x20 ∨ offset = 0x28) ∧ width = 64) →
      step s = .refused (.portAccess addr width))) ∧
  ∀ (s : State) (r : Refusal), step s = .refused r → ∃ a rest, s.events = .access a :: rest

/-- R26, R27 and R58: what a read of each register returns; a read has no effect on the block. -/
def Obligations.PortReads : Prop :=
  ∀ (s : State) (off : Word64) (width : Nat) (v : Word64) (rest : List Event),
    s.events = .access (.read (s.cfg.portBase + off) width) :: rest →
    ((off, width, v) ∈ [(0x00, 32, 0), (0x04, 32, zext32 (statusWord s)), (0x08, 64, s.arg0), (0x10, 64, s.arg1),
      (0x18, 64, s.result), (0x20, 64, s.errval), (0x28, 64, s.draws)]) →
    step s = .next { s with portData := some v, events := rest }

/-- R29 and R33: a host write replaces the whole of ARG0 or ARG1, BUSY or not; a write of a read-only register changes nothing. -/
def Obligations.PortWrites : Prop :=
  ∀ (s : State) (off : Word64) (width : Nat) (data : Word64) (rest : List Event),
    s.events = .access (.write (s.cfg.portBase + off) width data) :: rest →
    (off = 0x08 → width = 64 → step s = .next { s with arg0 := data, events := rest }) ∧
    (off = 0x10 → width = 64 → step s = .next { s with arg1 := data, events := rest }) ∧
    ((off, width) ∈ [((0x04 : Word64), 32), (0x18, 64), (0x20, 64), (0x28, 64)] → step s = .next { s with events := rest })

/-- R62 and R244: a byte another agent reads is the memory's, unless a FILL that has not completed writes that byte, when it is
the old or the new one; the block does not change. How the model resolves the race is log entry 10. -/
def Obligations.BufferReadIsOldOrNew : Prop :=
  ∀ (s : State) (a : Word64) (rest : List Event), s.events = .bufRead a :: rest →
    ∃ t v, step s = .next t ∧ t.bufData = some v ∧
      (v = (s.mem.read a.toNat).getD (Config.bufferInit a) ∨
        (s.busy = true ∧ s.seeded = true ∧ decode s.lcmd = .legal (.fill true) ∧
          ∃ i, i < (low32 s.la1).toNat ∧ s.fillAddr i = a ∧ v = s.fillByteAt i)) ∧
      t.busy = s.busy ∧ t.ovr = s.ovr ∧ EngineKept s t ∧ ReportsKept s t ∧ MemoryKept s t

/-- R215: with BUSY = 0 and no event the block holds all of its state; a move of the TIME input or of an agent that writes a byte of
the buffer changes no register of the block, and of the memory only that byte
(the list of events as the schedule is log entry 8). -/
def Obligations.OutsideMovesLeaveTheBlockAlone : Prop :=
  (∀ s : State, s.busy = false → s.events = [] → ∀ k, Sys2Proof.core.run k s = .next s) ∧
  (∀ (s : State) (v : Option Word64) (rest : List Event), s.events = .driveTime v :: rest →
    step s = .next { s with time := v, events := rest }) ∧
  ∀ (s : State) (a : Word64) (v : Byte) (rest : List Event), s.events = .bufWrite a v :: rest →
    ∃ t, step s = .next t ∧ t.mem.read a.toNat = some v ∧ (∀ b, b ≠ a.toNat → t.mem.read b = s.mem.read b) ∧
      t.busy = s.busy ∧ t.ovr = s.ovr ∧ EngineKept s t ∧ ReportsKept s t ∧ t.arg0 = s.arg0 ∧ t.arg1 = s.arg1 ∧
      t.lcmd = s.lcmd ∧ t.la0 = s.la0 ∧ t.la1 = s.la1 ∧ t.lt = s.lt

/-! ### Errors, completion, reset (spec/60_exceptions.md, spec/70_reset_and_hazards.md) -/

/-- R200 and R203: which error a command word reports, first of the order ILLEGAL_CMD, UNSEEDED, the argument check; with none of
them there is no error. -/
def Obligations.ErrorPriority : Prop :=
  ∀ s : State,
    ((∃ why, decode s.lcmd = .illegal why) → ∃ t, runCommand s = .next t ∧ ErrorEnds s t .illegalCmd .noParam 0) ∧
    (∀ i, decode s.lcmd = .legal i → i.isDrawing = true → s.seeded = false →
      ∃ t, runCommand s = .next t ∧ ErrorEnds s t .unseeded .noParam 0) ∧
    (decode s.lcmd = .legal .below → s.seeded = true → sint32 (low32 s.la0) < 0 →
      ∃ t, runCommand s = .next t ∧ ErrorEnds s t .invalidArgument .max (sext32 (low32 s.la0))) ∧
    (decode s.lcmd = .legal .range → s.seeded = true → sint32 (low32 s.la1) < sint32 (low32 s.la0) →
      ∃ t, runCommand s = .next t ∧ ErrorEnds s t .invalidArgument .min (sext32 (low32 s.la0))) ∧
    (decode s.lcmd = .legal (.fill false) → s.seeded = true →
      ∃ t, runCommand s = .next t ∧ ErrorEnds s t .nullBuffer .buffer 0) ∧
    (∀ t, s.busy = true → runCommand s = .next t → t.busy = false → t.err ≠ .noError →
      (∃ why, decode s.lcmd = .illegal why) ∨
      (∃ i, decode s.lcmd = .legal i ∧ i.isDrawing = true ∧ s.seeded = false) ∨
      (decode s.lcmd = .legal .below ∧ sint32 (low32 s.la0) < 0) ∨
      (decode s.lcmd = .legal .range ∧ sint32 (low32 s.la1) < sint32 (low32 s.la0)) ∨
      decode s.lcmd = .legal (.fill false))

/-- R201 and R202: a command that ends in an error has made no draw, changed no engine state, written no byte and left RESULT and
OVR as they were. -/
def Obligations.ErrorsChangeNothing : Prop :=
  ∀ s t : State, s.busy = true → runCommand s = .next t → t.busy = false → t.err ≠ .noError →
    ErrorEnds s t t.err t.param t.errval

/-- R205: in a machine that keeps the invariant every BUSY command completes on the block's turn, but for a FILL one of whose
writes the platform does not admit (log entry 11: the stuck command answers the same state). -/
def Obligations.EveryCommandCompletes : Prop :=
  ∀ s : State, Inv s → s.busy = true →
    ∃ t, blockTurn s = .next t ∧
      (t.busy = false ∨
        (t = s ∧ decode s.lcmd = .legal (.fill true) ∧ s.seeded = true ∧
          ∃ i, i < (low32 s.la1).toNat ∧ admits s.cfg (s.fillAddr i) = false))

/-- R209: to a host that writes CMD while BUSY = 0 and then waits, a legal command is one transition, from the state at the CMD
write to the state its meaning gives (the host's wait as events is log entry 14). -/
def Obligations.CommandIsOneTransition : Prop :=
  ∀ (s t : State) (data : Word64) (i : Instr) (rest : List Event), s.busy = false →
    s.events = .access (.write s.cfg.portBase 32 data) :: .wait :: rest →
    decode (low32 data) = .legal i → exec i (issue (low32 data) s) = .next t → t.busy = false →
    ∃ u, Sys2Proof.core.run 3 s = .next u ∧
      EngineKept t u ∧ ReportsKept t u ∧ u.busy = false ∧ u.ovr = t.ovr ∧ MemoryKept t u ∧ u.arg0 = s.arg0 ∧ u.arg1 = s.arg1 ∧
      u.portData = some (zext32 (statusWord t)) ∧ u.events = rest

/-- R230 and R39: reset, whatever the block is doing, gives every register its reset value and leaves the block idle; the machine's
initial state has the same values. -/
def Obligations.ResetValues : Prop :=
  (∀ (s : State) (rest : List Event), s.events = .reset :: rest →
    ∃ t, step s = .next t ∧ t.seeded = false ∧ statusWord t = 0 ∧ t.arg0 = 0 ∧ t.arg1 = 0 ∧ t.result = 0 ∧ t.errval = 0 ∧
      t.draws = 0 ∧ t.cfg = s.cfg ∧ t.events = rest) ∧
  (State.reset.seeded = false ∧ statusWord State.reset = 0 ∧ State.reset.arg0 = 0 ∧ State.reset.arg1 = 0 ∧
    State.reset.result = 0 ∧ State.reset.errval = 0 ∧ State.reset.draws = 0)

/-- R231: reset abandons a running command with none of its completion effects; each byte of memory keeps its old value or, where
a running FILL writes it, may hold the new one. -/
def Obligations.ResetAbandonsTheCommand : Prop :=
  ∀ (s : State) (rest : List Event), s.events = .reset :: rest →
    ∃ t, step s = .next t ∧ t.busy = false ∧ t.result = 0 ∧ t.seeded = false ∧
      ∀ a, t.mem.read a = s.mem.read a ∨
        (s.busy = true ∧ s.seeded = true ∧ decode s.lcmd = .legal (.fill true) ∧
          ∃ i, i < (low32 s.la1).toNat ∧ (s.fillAddr i).toNat = a ∧ t.mem.read a = some (s.fillByteAt i))

/-! ### The whole machine -/

/-- R209 and R247 in the model's terms: with a command running and the block to move, a step is the execution of the decoded
command at the state with the event taken; `withFetchWord` places a command as the very next step's
(log entries 7, 8 and 14). -/
def Obligations.StepRunsTheDecodedCommand : Prop :=
  (∀ (s : State) (i : Instr), s.busy = true → decode s.lcmd = .legal i → s.events = [] → step s = exec i s) ∧
  (∀ (s : State) (i : Instr) (rest : List Event), s.busy = true → decode s.lcmd = .legal i → s.events = .block :: rest →
    step s = exec i { s with events := rest }) ∧
  (∀ (s : State) (i : Instr) (rest : List Event), s.busy = true → decode s.lcmd = .legal i → s.events = .wait :: rest →
    step s = exec i { s with portData := some (zext32 (statusWord s)) }) ∧
  ∀ (s : State) (nbits w : Nat) (i : Instr), decodeTableWord nbits w = some i →
    step (s.withFetchWord nbits w) = exec i (issue (tableWord nbits w) s)

/-- The invariant holds after reset (its values for what R39 gives no value are log entries 1 and 5). -/
def Obligations.InvariantAtReset : Prop := Inv State.reset

/-- R23, R200 and the memory's canonical form as one invariant: every step from a state that has it, whatever the agents do, gives
a state that has it. -/
def Obligations.StepKeepsTheInvariant : Prop := ∀ s t : State, Inv s → step s = .next t → Inv t

/-- R143, R174 and D34: from a state that has the invariant no step faults: the retry loops' fuel is never exhausted. -/
def Obligations.NoStepFaults : Prop := ∀ (s : State) (f : Fault), Inv s → step s ≠ .fault f
end

