-- ==== Sys2Proof/Laws/Period.lean ====
section
/-! SUPPORT. Laws/Period.lean: the congruential advance from any state reaches every 64-bit value within 2^64 draws when INC is odd
(what rules R127 and R143 rest on). The argument is the usual one: two equal states d draws apart make 2^64 divide
`1 + a + ... + a^(d-1)` times an odd number, and for a ≡ 1 (mod 4) that sum is divisible by exactly the powers of two that divide d. -/

namespace Sys2Proof.Machine

/-- `1 + a + ... + a^(n-1)`. -/
def geomSum (a : Nat) : Nat → Nat
  | 0 => 0
  | n + 1 => a * geomSum a n + 1

theorem geomSum_add (a m n : Nat) : geomSum a (m + n) = a ^ m * geomSum a n + geomSum a m := by
  induction m with
  | zero => simp [geomSum]
  | succ m ih => rw [Nat.succ_add, geomSum, ih, geomSum]; ring

theorem geomSum_mul (a n : Nat) : a * geomSum a n + 1 = geomSum a n + a ^ n := by
  induction n with
  | zero => simp [geomSum]
  | succ n ih =>
    calc a * geomSum a (n + 1) + 1 = a * (a * geomSum a n + 1) + 1 := by rw [geomSum]
      _ = a * (geomSum a n + a ^ n) + 1 := by rw [ih]
      _ = geomSum a (n + 1) + a ^ (n + 1) := by rw [geomSum]; ring

theorem geomSum_parity {a : Nat} (ha : a % 2 = 1) (n : Nat) : geomSum a n % 2 = n % 2 := by
  induction n with
  | zero => rfl
  | succ n ih => rw [geomSum, Nat.add_mod, Nat.mul_mod, ha, ih]; omega

/-- For a ≡ 1 (mod 4) a power of two that divides the sum of n terms divides n. -/
theorem two_pow_dvd_of_dvd_geomSum {a : Nat} (ha : a % 4 = 1) (k n : Nat) (h : 2 ^ k ∣ geomSum a n) : 2 ^ k ∣ n := by
  induction k generalizing n with
  | zero => simp
  | succ k ih =>
    have h2 : 2 ∣ geomSum a n := (dvd_pow_self 2 k.succ_ne_zero).trans h
    have hn : n % 2 = 0 := by rw [← geomSum_parity (by omega : a % 2 = 1)]; exact Nat.mod_eq_zero_of_dvd h2
    obtain ⟨m, rfl⟩ : ∃ m, n = m + m := ⟨n / 2, by omega⟩
    have hpow : a ^ m % 4 = 1 := by rw [Nat.pow_mod, ha]; simp
    have hodd : ∃ o, a ^ m + 1 = 2 * o ∧ o % 2 = 1 := ⟨(a ^ m + 1) / 2, by omega, by omega⟩
    obtain ⟨o, ho, hodd⟩ := hodd
    have hsum : geomSum a (m + m) = 2 * (o * geomSum a m) := by
      rw [geomSum_add, ← Nat.succ_mul, Nat.succ_eq_add_one, ho]; ring
    rw [hsum, pow_succ', Nat.mul_dvd_mul_iff_left two_pos] at h
    have hco : Nat.Coprime (2 ^ k) o := Nat.Coprime.pow_left k ((Nat.coprime_two_left).2 (Nat.odd_iff.2 hodd))
    rw [pow_succ', ← two_mul]
    exact Nat.mul_dvd_mul_left 2 (ih m (hco.dvd_of_dvd_mul_left h))

theorem advance_toNat (inc old : Word64) :
    (advance inc old).toNat = (6364136223846793005 * old.toNat + inc.toNat) % 2 ^ 64 := by
  simp [advance, mult, BitVec.toNat_add, BitVec.toNat_mul]

/-- STATE after n draws, as a number modulo 2^64. -/
theorem advance_iterate_toNat (inc old : Word64) (n : Nat) :
    (((advance inc)^[n] old).toNat : ZMod (2 ^ 64)) =
      (6364136223846793005 : Nat) ^ n * old.toNat + inc.toNat * geomSum 6364136223846793005 n := by
  induction n with
  | zero => simp [geomSum]
  | succ n ih =>
    rw [Function.iterate_succ_apply', advance_toNat, ZMod.natCast_mod, Nat.cast_add, Nat.cast_mul, ih, geomSum]
    push_cast
    ring

theorem advance_injective (inc : Word64) : Function.Injective (advance inc) := by
  intro x y h
  have hx : mult * x = mult * y := by simpa [advance] using h
  have hinv : ∀ z : Word64, 13877824140714322085 * (mult * z) = z := fun z => by
    rw [← BitVec.mul_assoc, show (13877824140714322085 : Word64) * mult = 1#64 by decide, BitVec.one_mul]
  rw [← hinv x, hx, hinv]

/-- With INC odd a state comes back only after a multiple of 2^64 draws. -/
theorem two_pow_dvd_of_iterate_eq {inc : Word64} (h : inc.getLsbD 0 = true) {old : Word64} {d : Nat}
    (hd : (advance inc)^[d] old = old) : 2 ^ 64 ∣ d := by
  apply two_pow_dvd_of_dvd_geomSum (a := 6364136223846793005) (by norm_num)
  have hc := advance_iterate_toNat inc old d
  rw [hd] at hc
  have hodd : inc.toNat % 2 = 1 := by
    simpa [BitVec.getLsbD, Nat.testBit_zero] using h
  have hg : ((6364136223846793005 * geomSum 6364136223846793005 d + 1 : Nat) : ZMod (2 ^ 64)) =
      ((geomSum 6364136223846793005 d + 6364136223846793005 ^ d : Nat) : ZMod (2 ^ 64)) := by rw [geomSum_mul]
  have hz : ((geomSum 6364136223846793005 d * (6364136223846793004 * old.toNat + inc.toNat) : Nat) : ZMod (2 ^ 64)) = 0 := by
    push_cast at hg hc ⊢
    linear_combination (old.toNat : ZMod (2 ^ 64)) * hg - hc
  rw [ZMod.natCast_eq_zero_iff] at hz
  refine (Nat.Coprime.pow_left 64 ((Nat.coprime_two_left).2 (Nat.odd_iff.2 ?_))).dvd_of_dvd_mul_right hz
  omega

/-- With INC odd the 2^64 states from any one on are different. -/
theorem advance_iterate_injOn {inc : Word64} (h : inc.getLsbD 0 = true) (old : Word64) {i j : Nat} (hj : j < 2 ^ 64)
    (hij : i ≤ j) (he : (advance inc)^[i] old = (advance inc)^[j] old) : i = j := by
  obtain ⟨d, rfl⟩ := Nat.exists_eq_add_of_le hij
  rw [Function.iterate_add_apply] at he
  have := two_pow_dvd_of_iterate_eq h (((advance_injective inc).iterate i) he).symm
  have := Nat.eq_zero_of_dvd_of_lt this (by omega)
  omega

/-- With INC odd every 64-bit value is reached within 2^64 draws. -/
theorem advance_iterate_reaches {inc : Word64} (h : inc.getLsbD 0 = true) (old y : Word64) :
    ∃ k, k < 2 ^ 64 ∧ (advance inc)^[k] old = y := by
  have hinj : Function.Injective fun k : Fin (2 ^ 64) => ((advance inc)^[k.val] old).toFin := by
    intro i j he
    have he' := BitVec.eq_of_toFin_eq he
    rcases Nat.le_total i.val j.val with hij | hij
    · exact Fin.ext (advance_iterate_injOn h old j.isLt hij he')
    · exact (Fin.ext (advance_iterate_injOn h old i.isLt hij he'.symm)).symm
  obtain ⟨k, hk⟩ := (Finite.injective_iff_surjective.1 hinj) y.toFin
  exact ⟨k.val, k.isLt, BitVec.eq_of_toFin_eq hk⟩

end Sys2Proof.Machine
end

