-- ==== Sys2Proof/Laws/State.lean ====
section
/-! SUPPORT. Laws/State.lean: one lemma per field for each update of the state that the commands share, so that no proof unfolds a
record update. -/

namespace Sys2Proof.Machine

/-! ### Executing starts with empty working registers (R37). -/

@[simp] theorem startCommand_stateReg (s : State) : (startCommand s).stateReg = s.stateReg := rfl
@[simp] theorem startCommand_inc (s : State) : (startCommand s).inc = s.inc := rfl
@[simp] theorem startCommand_seeded (s : State) : (startCommand s).seeded = s.seeded := rfl
@[simp] theorem startCommand_busy (s : State) : (startCommand s).busy = s.busy := rfl
@[simp] theorem startCommand_ovr (s : State) : (startCommand s).ovr = s.ovr := rfl
@[simp] theorem startCommand_err (s : State) : (startCommand s).err = s.err := rfl
@[simp] theorem startCommand_param (s : State) : (startCommand s).param = s.param := rfl
@[simp] theorem startCommand_arg0 (s : State) : (startCommand s).arg0 = s.arg0 := rfl
@[simp] theorem startCommand_arg1 (s : State) : (startCommand s).arg1 = s.arg1 := rfl
@[simp] theorem startCommand_result (s : State) : (startCommand s).result = s.result := rfl
@[simp] theorem startCommand_errval (s : State) : (startCommand s).errval = s.errval := rfl
@[simp] theorem startCommand_draws (s : State) : (startCommand s).draws = s.draws := rfl
@[simp] theorem startCommand_lcmd (s : State) : (startCommand s).lcmd = s.lcmd := rfl
@[simp] theorem startCommand_la0 (s : State) : (startCommand s).la0 = s.la0 := rfl
@[simp] theorem startCommand_la1 (s : State) : (startCommand s).la1 = s.la1 := rfl
@[simp] theorem startCommand_lt (s : State) : (startCommand s).lt = s.lt := rfl
@[simp] theorem startCommand_work (s : State) : (startCommand s).work = Work.idle := rfl
@[simp] theorem startCommand_mem (s : State) : (startCommand s).mem = s.mem := rfl
@[simp] theorem startCommand_cfg (s : State) : (startCommand s).cfg = s.cfg := rfl
@[simp] theorem startCommand_time (s : State) : (startCommand s).time = s.time := rfl
@[simp] theorem startCommand_events (s : State) : (startCommand s).events = s.events := rfl
@[simp] theorem startCommand_portData (s : State) : (startCommand s).portData = s.portData := rfl
@[simp] theorem startCommand_bufData (s : State) : (startCommand s).bufData = s.bufData := rfl
@[simp] theorem startCommand_overtaken (s : State) : (startCommand s).overtaken = s.overtaken := rfl
@[simp] theorem startCommand_freeIdx (s : State) : (startCommand s).freeIdx = s.freeIdx := rfl

/-! ### Completion without error (R204). -/

@[simp] theorem complete_stateReg (s : State) : (complete s).stateReg = s.stateReg := rfl
@[simp] theorem complete_inc (s : State) : (complete s).inc = s.inc := rfl
@[simp] theorem complete_seeded (s : State) : (complete s).seeded = s.seeded := rfl
@[simp] theorem complete_busy (s : State) : (complete s).busy = false := rfl
@[simp] theorem complete_ovr (s : State) : (complete s).ovr = s.ovr := rfl
@[simp] theorem complete_err (s : State) : (complete s).err = .noError := rfl
@[simp] theorem complete_param (s : State) : (complete s).param = .noParam := rfl
@[simp] theorem complete_arg0 (s : State) : (complete s).arg0 = s.arg0 := rfl
@[simp] theorem complete_arg1 (s : State) : (complete s).arg1 = s.arg1 := rfl
@[simp] theorem complete_result (s : State) : (complete s).result = s.result := rfl
@[simp] theorem complete_errval (s : State) : (complete s).errval = 0 := rfl
@[simp] theorem complete_draws (s : State) : (complete s).draws = s.work.draws := rfl
@[simp] theorem complete_lcmd (s : State) : (complete s).lcmd = s.lcmd := rfl
@[simp] theorem complete_la0 (s : State) : (complete s).la0 = s.la0 := rfl
@[simp] theorem complete_la1 (s : State) : (complete s).la1 = s.la1 := rfl
@[simp] theorem complete_lt (s : State) : (complete s).lt = s.lt := rfl
@[simp] theorem complete_work (s : State) : (complete s).work = Work.idle := rfl
@[simp] theorem complete_mem (s : State) : (complete s).mem = s.mem := rfl
@[simp] theorem complete_cfg (s : State) : (complete s).cfg = s.cfg := rfl
@[simp] theorem complete_time (s : State) : (complete s).time = s.time := rfl
@[simp] theorem complete_events (s : State) : (complete s).events = s.events := rfl
@[simp] theorem complete_portData (s : State) : (complete s).portData = s.portData := rfl
@[simp] theorem complete_bufData (s : State) : (complete s).bufData = s.bufData := rfl
@[simp] theorem complete_overtaken (s : State) : (complete s).overtaken = [] := rfl
@[simp] theorem complete_freeIdx (s : State) : (complete s).freeIdx = s.freeIdx := rfl

/-! ### Completion with a value (R73, R204). -/

@[simp] theorem completeValue_stateReg (v : Word64) (s : State) : (completeValue v s).stateReg = s.stateReg := rfl
@[simp] theorem completeValue_inc (v : Word64) (s : State) : (completeValue v s).inc = s.inc := rfl
@[simp] theorem completeValue_seeded (v : Word64) (s : State) : (completeValue v s).seeded = s.seeded := rfl
@[simp] theorem completeValue_busy (v : Word64) (s : State) : (completeValue v s).busy = false := rfl
@[simp] theorem completeValue_ovr (v : Word64) (s : State) : (completeValue v s).ovr = s.ovr := rfl
@[simp] theorem completeValue_err (v : Word64) (s : State) : (completeValue v s).err = .noError := rfl
@[simp] theorem completeValue_param (v : Word64) (s : State) : (completeValue v s).param = .noParam := rfl
@[simp] theorem completeValue_arg0 (v : Word64) (s : State) : (completeValue v s).arg0 = s.arg0 := rfl
@[simp] theorem completeValue_arg1 (v : Word64) (s : State) : (completeValue v s).arg1 = s.arg1 := rfl
@[simp] theorem completeValue_result (v : Word64) (s : State) : (completeValue v s).result = v := rfl
@[simp] theorem completeValue_errval (v : Word64) (s : State) : (completeValue v s).errval = 0 := rfl
@[simp] theorem completeValue_draws (v : Word64) (s : State) : (completeValue v s).draws = s.work.draws := rfl
@[simp] theorem completeValue_lcmd (v : Word64) (s : State) : (completeValue v s).lcmd = s.lcmd := rfl
@[simp] theorem completeValue_la0 (v : Word64) (s : State) : (completeValue v s).la0 = s.la0 := rfl
@[simp] theorem completeValue_la1 (v : Word64) (s : State) : (completeValue v s).la1 = s.la1 := rfl
@[simp] theorem completeValue_lt (v : Word64) (s : State) : (completeValue v s).lt = s.lt := rfl
@[simp] theorem completeValue_work (v : Word64) (s : State) : (completeValue v s).work = Work.idle := rfl
@[simp] theorem completeValue_mem (v : Word64) (s : State) : (completeValue v s).mem = s.mem := rfl
@[simp] theorem completeValue_cfg (v : Word64) (s : State) : (completeValue v s).cfg = s.cfg := rfl
@[simp] theorem completeValue_time (v : Word64) (s : State) : (completeValue v s).time = s.time := rfl
@[simp] theorem completeValue_events (v : Word64) (s : State) : (completeValue v s).events = s.events := rfl
@[simp] theorem completeValue_portData (v : Word64) (s : State) : (completeValue v s).portData = s.portData := rfl
@[simp] theorem completeValue_bufData (v : Word64) (s : State) : (completeValue v s).bufData = s.bufData := rfl
@[simp] theorem completeValue_overtaken (v : Word64) (s : State) : (completeValue v s).overtaken = [] := rfl
@[simp] theorem completeValue_freeIdx (v : Word64) (s : State) : (completeValue v s).freeIdx = s.freeIdx := rfl

/-! ### Ending in an error (R201). -/

@[simp] theorem raiseError_stateReg (c : ErrCode) (p : Param) (v : Word64) (s : State) : (raiseError c p v s).stateReg = s.stateReg := rfl
@[simp] theorem raiseError_inc (c : ErrCode) (p : Param) (v : Word64) (s : State) : (raiseError c p v s).inc = s.inc := rfl
@[simp] theorem raiseError_seeded (c : ErrCode) (p : Param) (v : Word64) (s : State) : (raiseError c p v s).seeded = s.seeded := rfl
@[simp] theorem raiseError_busy (c : ErrCode) (p : Param) (v : Word64) (s : State) : (raiseError c p v s).busy = false := rfl
@[simp] theorem raiseError_ovr (c : ErrCode) (p : Param) (v : Word64) (s : State) : (raiseError c p v s).ovr = s.ovr := rfl
@[simp] theorem raiseError_err (c : ErrCode) (p : Param) (v : Word64) (s : State) : (raiseError c p v s).err = c := rfl
@[simp] theorem raiseError_param (c : ErrCode) (p : Param) (v : Word64) (s : State) : (raiseError c p v s).param = p := rfl
@[simp] theorem raiseError_arg0 (c : ErrCode) (p : Param) (v : Word64) (s : State) : (raiseError c p v s).arg0 = s.arg0 := rfl
@[simp] theorem raiseError_arg1 (c : ErrCode) (p : Param) (v : Word64) (s : State) : (raiseError c p v s).arg1 = s.arg1 := rfl
@[simp] theorem raiseError_result (c : ErrCode) (p : Param) (v : Word64) (s : State) : (raiseError c p v s).result = s.result := rfl
@[simp] theorem raiseError_errval (c : ErrCode) (p : Param) (v : Word64) (s : State) : (raiseError c p v s).errval = v := rfl
@[simp] theorem raiseError_draws (c : ErrCode) (p : Param) (v : Word64) (s : State) : (raiseError c p v s).draws = 0 := rfl
@[simp] theorem raiseError_lcmd (c : ErrCode) (p : Param) (v : Word64) (s : State) : (raiseError c p v s).lcmd = s.lcmd := rfl
@[simp] theorem raiseError_la0 (c : ErrCode) (p : Param) (v : Word64) (s : State) : (raiseError c p v s).la0 = s.la0 := rfl
@[simp] theorem raiseError_la1 (c : ErrCode) (p : Param) (v : Word64) (s : State) : (raiseError c p v s).la1 = s.la1 := rfl
@[simp] theorem raiseError_lt (c : ErrCode) (p : Param) (v : Word64) (s : State) : (raiseError c p v s).lt = s.lt := rfl
@[simp] theorem raiseError_work (c : ErrCode) (p : Param) (v : Word64) (s : State) : (raiseError c p v s).work = Work.idle := rfl
@[simp] theorem raiseError_mem (c : ErrCode) (p : Param) (v : Word64) (s : State) : (raiseError c p v s).mem = s.mem := rfl
@[simp] theorem raiseError_cfg (c : ErrCode) (p : Param) (v : Word64) (s : State) : (raiseError c p v s).cfg = s.cfg := rfl
@[simp] theorem raiseError_time (c : ErrCode) (p : Param) (v : Word64) (s : State) : (raiseError c p v s).time = s.time := rfl
@[simp] theorem raiseError_events (c : ErrCode) (p : Param) (v : Word64) (s : State) : (raiseError c p v s).events = s.events := rfl
@[simp] theorem raiseError_portData (c : ErrCode) (p : Param) (v : Word64) (s : State) : (raiseError c p v s).portData = s.portData := rfl
@[simp] theorem raiseError_bufData (c : ErrCode) (p : Param) (v : Word64) (s : State) : (raiseError c p v s).bufData = s.bufData := rfl
@[simp] theorem raiseError_overtaken (c : ErrCode) (p : Param) (v : Word64) (s : State) : (raiseError c p v s).overtaken = [] := rfl
@[simp] theorem raiseError_freeIdx (c : ErrCode) (p : Param) (v : Word64) (s : State) : (raiseError c p v s).freeIdx = s.freeIdx := rfl

/-! ### Construction (R100). -/

@[simp] theorem construct_stateReg (seed stream : Word64) (s : State) : (construct seed stream s).stateReg = seed := rfl
@[simp] theorem construct_inc (seed stream : Word64) (s : State) : (construct seed stream s).inc = stream ||| 1 := rfl
@[simp] theorem construct_seeded (seed stream : Word64) (s : State) : (construct seed stream s).seeded = true := rfl
@[simp] theorem construct_busy (seed stream : Word64) (s : State) : (construct seed stream s).busy = s.busy := rfl
@[simp] theorem construct_ovr (seed stream : Word64) (s : State) : (construct seed stream s).ovr = s.ovr := rfl
@[simp] theorem construct_err (seed stream : Word64) (s : State) : (construct seed stream s).err = s.err := rfl
@[simp] theorem construct_param (seed stream : Word64) (s : State) : (construct seed stream s).param = s.param := rfl
@[simp] theorem construct_arg0 (seed stream : Word64) (s : State) : (construct seed stream s).arg0 = s.arg0 := rfl
@[simp] theorem construct_arg1 (seed stream : Word64) (s : State) : (construct seed stream s).arg1 = s.arg1 := rfl
@[simp] theorem construct_result (seed stream : Word64) (s : State) : (construct seed stream s).result = s.result := rfl
@[simp] theorem construct_errval (seed stream : Word64) (s : State) : (construct seed stream s).errval = s.errval := rfl
@[simp] theorem construct_draws (seed stream : Word64) (s : State) : (construct seed stream s).draws = s.draws := rfl
@[simp] theorem construct_lcmd (seed stream : Word64) (s : State) : (construct seed stream s).lcmd = s.lcmd := rfl
@[simp] theorem construct_la0 (seed stream : Word64) (s : State) : (construct seed stream s).la0 = s.la0 := rfl
@[simp] theorem construct_la1 (seed stream : Word64) (s : State) : (construct seed stream s).la1 = s.la1 := rfl
@[simp] theorem construct_lt (seed stream : Word64) (s : State) : (construct seed stream s).lt = s.lt := rfl
@[simp] theorem construct_work (seed stream : Word64) (s : State) : (construct seed stream s).work = s.work := rfl
@[simp] theorem construct_mem (seed stream : Word64) (s : State) : (construct seed stream s).mem = s.mem := rfl
@[simp] theorem construct_cfg (seed stream : Word64) (s : State) : (construct seed stream s).cfg = s.cfg := rfl
@[simp] theorem construct_time (seed stream : Word64) (s : State) : (construct seed stream s).time = s.time := rfl
@[simp] theorem construct_events (seed stream : Word64) (s : State) : (construct seed stream s).events = s.events := rfl
@[simp] theorem construct_portData (seed stream : Word64) (s : State) : (construct seed stream s).portData = s.portData := rfl
@[simp] theorem construct_bufData (seed stream : Word64) (s : State) : (construct seed stream s).bufData = s.bufData := rfl
@[simp] theorem construct_overtaken (seed stream : Word64) (s : State) : (construct seed stream s).overtaken = s.overtaken := rfl
@[simp] theorem construct_freeIdx (seed stream : Word64) (s : State) : (construct seed stream s).freeIdx = s.freeIdx := rfl

/-! ### The raw draw (R120). -/

@[simp] theorem draw_stateReg (s : State) : (draw s).2.stateReg = advance s.inc s.stateReg := rfl
@[simp] theorem draw_inc (s : State) : (draw s).2.inc = s.inc := rfl
@[simp] theorem draw_seeded (s : State) : (draw s).2.seeded = s.seeded := rfl
@[simp] theorem draw_busy (s : State) : (draw s).2.busy = s.busy := rfl
@[simp] theorem draw_ovr (s : State) : (draw s).2.ovr = s.ovr := rfl
@[simp] theorem draw_err (s : State) : (draw s).2.err = s.err := rfl
@[simp] theorem draw_param (s : State) : (draw s).2.param = s.param := rfl
@[simp] theorem draw_arg0 (s : State) : (draw s).2.arg0 = s.arg0 := rfl
@[simp] theorem draw_arg1 (s : State) : (draw s).2.arg1 = s.arg1 := rfl
@[simp] theorem draw_result (s : State) : (draw s).2.result = s.result := rfl
@[simp] theorem draw_errval (s : State) : (draw s).2.errval = s.errval := rfl
@[simp] theorem draw_draws (s : State) : (draw s).2.draws = s.draws := rfl
@[simp] theorem draw_lcmd (s : State) : (draw s).2.lcmd = s.lcmd := rfl
@[simp] theorem draw_la0 (s : State) : (draw s).2.la0 = s.la0 := rfl
@[simp] theorem draw_la1 (s : State) : (draw s).2.la1 = s.la1 := rfl
@[simp] theorem draw_lt (s : State) : (draw s).2.lt = s.lt := rfl
@[simp] theorem draw_work (s : State) : (draw s).2.work = { s.work with draws := s.work.draws + 1 } := rfl
@[simp] theorem draw_mem (s : State) : (draw s).2.mem = s.mem := rfl
@[simp] theorem draw_cfg (s : State) : (draw s).2.cfg = s.cfg := rfl
@[simp] theorem draw_time (s : State) : (draw s).2.time = s.time := rfl
@[simp] theorem draw_events (s : State) : (draw s).2.events = s.events := rfl
@[simp] theorem draw_portData (s : State) : (draw s).2.portData = s.portData := rfl
@[simp] theorem draw_bufData (s : State) : (draw s).2.bufData = s.bufData := rfl
@[simp] theorem draw_overtaken (s : State) : (draw s).2.overtaken = s.overtaken := rfl
@[simp] theorem draw_freeIdx (s : State) : (draw s).2.freeIdx = s.freeIdx := rfl

/-! ### Issue (R27, R37). -/

@[simp] theorem issue_stateReg (w : Word32) (s : State) : (issue w s).stateReg = s.stateReg := by
  unfold issue latchTime; split <;> rfl
@[simp] theorem issue_inc (w : Word32) (s : State) : (issue w s).inc = s.inc := by
  unfold issue latchTime; split <;> rfl
@[simp] theorem issue_seeded (w : Word32) (s : State) : (issue w s).seeded = s.seeded := by
  unfold issue latchTime; split <;> rfl
@[simp] theorem issue_busy (w : Word32) (s : State) : (issue w s).busy = true := rfl
@[simp] theorem issue_ovr (w : Word32) (s : State) : (issue w s).ovr = s.ovr := by
  unfold issue latchTime; split <;> rfl
@[simp] theorem issue_err (w : Word32) (s : State) : (issue w s).err = s.err := by
  unfold issue latchTime; split <;> rfl
@[simp] theorem issue_param (w : Word32) (s : State) : (issue w s).param = s.param := by
  unfold issue latchTime; split <;> rfl
@[simp] theorem issue_arg0 (w : Word32) (s : State) : (issue w s).arg0 = s.arg0 := by
  unfold issue latchTime; split <;> rfl
@[simp] theorem issue_arg1 (w : Word32) (s : State) : (issue w s).arg1 = s.arg1 := by
  unfold issue latchTime; split <;> rfl
@[simp] theorem issue_result (w : Word32) (s : State) : (issue w s).result = s.result := by
  unfold issue latchTime; split <;> rfl
@[simp] theorem issue_errval (w : Word32) (s : State) : (issue w s).errval = s.errval := by
  unfold issue latchTime; split <;> rfl
@[simp] theorem issue_draws (w : Word32) (s : State) : (issue w s).draws = s.draws := by
  unfold issue latchTime; split <;> rfl
@[simp] theorem issue_lcmd (w : Word32) (s : State) : (issue w s).lcmd = w := rfl
@[simp] theorem issue_la0 (w : Word32) (s : State) : (issue w s).la0 = s.arg0 := rfl
@[simp] theorem issue_la1 (w : Word32) (s : State) : (issue w s).la1 = s.arg1 := rfl
@[simp] theorem issue_lt (w : Word32) (s : State) : (issue w s).lt = (latchTime s).1 := rfl
@[simp] theorem issue_work (w : Word32) (s : State) : (issue w s).work = Work.idle := rfl
@[simp] theorem issue_mem (w : Word32) (s : State) : (issue w s).mem = s.mem := by
  unfold issue latchTime; split <;> rfl
@[simp] theorem issue_cfg (w : Word32) (s : State) : (issue w s).cfg = s.cfg := by
  unfold issue latchTime; split <;> rfl
@[simp] theorem issue_time (w : Word32) (s : State) : (issue w s).time = s.time := by
  unfold issue latchTime; split <;> rfl
@[simp] theorem issue_events (w : Word32) (s : State) : (issue w s).events = s.events := by
  unfold issue latchTime; split <;> rfl
@[simp] theorem issue_portData (w : Word32) (s : State) : (issue w s).portData = s.portData := by
  unfold issue latchTime; split <;> rfl
@[simp] theorem issue_bufData (w : Word32) (s : State) : (issue w s).bufData = s.bufData := by
  unfold issue latchTime; split <;> rfl
@[simp] theorem issue_overtaken (w : Word32) (s : State) : (issue w s).overtaken = [] := rfl
@[simp] theorem issue_freeIdx (w : Word32) (s : State) : (issue w s).freeIdx = (latchTime s).2.freeIdx := rfl

@[simp] theorem draw_fst (s : State) : (draw s).1 = output s.stateReg := rfl

end Sys2Proof.Machine
end

