-- ==== Sys2Proof/Laws/Draw.lean ====
section
/-! SUPPORT. Laws/Draw.lean: the sequence of draws, and one spec lemma each for the retry loop and the bounded draw. -/

namespace Sys2Proof.Machine

@[simp] theorem lcgAfter_zero (s : State) : s.lcgAfter 0 = s.stateReg := rfl

theorem lcgAfter_succ (s : State) (k : Nat) : s.lcgAfter (k + 1) = (advance s.inc)^[k] (advance s.inc s.stateReg) := rfl

@[simp] theorem draw_lcgAfter (s : State) (k : Nat) : (draw s).2.lcgAfter k = s.lcgAfter (k + 1) := rfl

@[simp] theorem draw_drawAt (s : State) (k : Nat) : (draw s).2.drawAt k = s.drawAt (k + 1) := rfl

/-- The sequence of draws is a function of STATE and INC alone (R129). -/
theorem drawAt_congr {s t : State} (hs : t.stateReg = s.stateReg) (hi : t.inc = s.inc) : t.drawAt = s.drawAt := by
  funext k; unfold State.drawAt State.lcgAfter; rw [hs, hi]

theorem lcgAfter_congr {s t : State} (hs : t.stateReg = s.stateReg) (hi : t.inc = s.inc) : t.lcgAfter = s.lcgAfter := by
  funext k; unfold State.lcgAfter; rw [hs, hi]

/-- With INC odd every 64-bit value is a coming STATE. -/
theorem lcgAfter_reaches {s : State} (h : s.inc.getLsbD 0 = true) (y : Word64) : ∃ k, k < 2 ^ 64 ∧ s.lcgAfter k = y :=
  advance_iterate_reaches h s.stateReg y

/-- The state after `n` draws of a running command, the last of them in the loop's register. -/
def afterDraws (s : State) (n : Nat) (cur : Word32) : State :=
  { s with
    stateReg := s.lcgAfter n
    work := { s.work with draws := s.work.draws + BitVec.ofNat 64 n, cur := cur } }

theorem afterDraws_draw (s : State) (n : Nat) (c r : Word32) :
    afterDraws { (draw s).2 with work := { (draw s).2.work with cur := c } } n r = afterDraws s (n + 1) r := by
  have h : s.work.draws + 1 + BitVec.ofNat 64 n = s.work.draws + BitVec.ofNat 64 (n + 1) := by
    rw [BitVec.add_assoc, Nat.add_comm n 1, BitVec.ofNat_add]; rfl
  unfold afterDraws draw
  simp only [h]
  rfl

/-- The retry loop answers exactly when one of its draws is accepted: the first such, with that many draws made. -/
theorem drawUntil_eq_some {accept : Word32 → Bool} {fuel : Nat} {s t : State} {r : Word32} :
    drawUntil accept fuel s = some (r, t) ↔
      ∃ j, j < fuel ∧ FirstAccepted s (accept · = true) j ∧ r = s.drawAt j ∧ t = afterDraws s (j + 1) r := by
  induction fuel generalizing s with
  | zero => simp [drawUntil]
  | succ fuel ih =>
    have hd : (draw s).1 = s.drawAt 0 := rfl
    simp only [drawUntil]
    by_cases h : accept (draw s).1 = true
    · rw [if_pos h, Option.some.injEq, Prod.mk.injEq]
      constructor
      · rintro ⟨rfl, rfl⟩
        exact ⟨0, Nat.succ_pos _, ⟨h, fun j hj => absurd hj (Nat.not_lt_zero j)⟩, rfl, rfl⟩
      · rintro ⟨j, -, ⟨-, hj⟩, rfl, rfl⟩
        have : j = 0 := by
          by_contra h0
          exact hj 0 (Nat.pos_of_ne_zero h0) (hd ▸ h)
        subst this
        exact ⟨rfl, rfl⟩
    · rw [if_neg h, ih]
      constructor
      · rintro ⟨j, hj, ⟨ha, hn⟩, rfl, rfl⟩
        refine ⟨j + 1, Nat.succ_lt_succ hj, ⟨ha, fun i hi => ?_⟩, rfl, afterDraws_draw s (j + 1) _ _⟩
        cases i with
        | zero => exact hd ▸ h
        | succ i => exact hn i (Nat.lt_of_succ_lt_succ hi)
      · rintro ⟨j, hj, ⟨ha, hn⟩, rfl, rfl⟩
        cases j with
        | zero => exact absurd ha (hd ▸ h)
        | succ j =>
          exact ⟨j, Nat.lt_of_succ_lt_succ hj, ⟨ha, fun i hi => hn (i + 1) (Nat.succ_lt_succ hi)⟩, rfl,
            (afterDraws_draw s (j + 1) _ _).symm⟩

/-- The retry loops of two machines with the same STATE and INC accept the same draw, or neither accepts one (R24, R129). -/
theorem drawUntil_congr {accept : Word32 → Bool} {fuel : Nat} {s t : State} (hs : t.stateReg = s.stateReg) (hi : t.inc = s.inc) :
    (∃ j, FirstAccepted s (accept · = true) j ∧
        drawUntil accept fuel s = some (s.drawAt j, afterDraws s (j + 1) (s.drawAt j)) ∧
        drawUntil accept fuel t = some (s.drawAt j, afterDraws t (j + 1) (s.drawAt j))) ∨
      (drawUntil accept fuel s = none ∧ drawUntil accept fuel t = none) := by
  have hd := drawAt_congr hs hi
  have hf : ∀ j, FirstAccepted t (accept · = true) j ↔ FirstAccepted s (accept · = true) j := fun j => by
    unfold FirstAccepted; rw [hd]
  cases h : drawUntil accept fuel s with
  | some d =>
    obtain ⟨j, hj, ha, hr, hu⟩ := drawUntil_eq_some.1 (show _ = some (d.1, d.2) from h)
    refine .inl ⟨j, ha, congrArg some (Prod.ext hr (hu.trans (by rw [hr]))), drawUntil_eq_some.2 ⟨j, hj, (hf j).2 ha, ?_, rfl⟩⟩
    rw [hd]
  | none =>
    refine .inr ⟨rfl, ?_⟩
    cases h' : drawUntil accept fuel t with
    | none => rfl
    | some d =>
      obtain ⟨j, hj, ha, -, -⟩ := drawUntil_eq_some.1 (show _ = some (d.1, d.2) from h')
      rw [drawUntil_eq_some.2 ⟨j, hj, (hf j).1 ha, rfl, rfl⟩] at h
      cases h

/-- With INC odd and some output accepted, the retry loop's fuel suffices (R143, R174, D34). -/
theorem drawUntil_answers {accept : Word32 → Bool} {s : State} (h : s.inc.getLsbD 0 = true) (y : Word64)
    (hy : accept (output y) = true) : ∃ d, drawUntil accept retryFuel s = some d := by
  classical
  obtain ⟨k, hk, rfl⟩ := lcgAfter_reaches h y
  have hex : ∃ j, accept (s.drawAt j) = true := ⟨k, hy⟩
  have hlt : Nat.find hex < retryFuel := (Nat.find_le hy).trans_lt hk
  exact ⟨_, drawUntil_eq_some.2 ⟨Nat.find hex, hlt, ⟨Nat.find_spec hex, fun j hj => Nat.find_min hex hj⟩, rfl, rfl⟩⟩

/-- The bounded draw's answer and everything it changes: STATE advances by the draws made, and the working registers change. -/
theorem boundedDraw_eq_some {max v : Word32} {s t : State} (h : boundedDraw max s = some (v, t)) :
    ∃ k cur thr, BoundedGives s max v k ∧
      t = { s with
        stateReg := s.lcgAfter k
        work := { s.work with draws := s.work.draws + BitVec.ofNat 64 k, cur := cur, thr := thr } } := by
  unfold boundedDraw at h
  split at h
  · rename_i h0
    obtain ⟨rfl, rfl⟩ := Prod.mk.inj (Option.some.inj h)
    exact ⟨0, s.work.cur, s.work.thr, .inl ⟨h0, rfl, rfl⟩, by simp⟩
  · rename_i h0
    obtain ⟨⟨r, u⟩, hd, he⟩ := Option.map_eq_some_iff.1 h
    obtain ⟨rfl, rfl⟩ := Prod.mk.inj he
    obtain ⟨j, -, ⟨ha, hn⟩, rfl, rfl⟩ := drawUntil_eq_some.1 hd
    refine ⟨j + 1, _, _, .inr ⟨h0, j, ⟨?_, fun i hi => ?_⟩, rfl, rfl⟩, rfl⟩
    · exact of_decide_eq_true ha
    · exact fun hc => hn i hi (decide_eq_true hc)

/-- With INC odd the bounded draw always answers (R143). -/
theorem boundedDraw_answers {max : Word32} {s : State} (h : s.inc.getLsbD 0 = true) : ∃ d, boundedDraw max s = some d := by
  unfold boundedDraw
  split
  · exact ⟨_, rfl⟩
  · obtain ⟨d, hd⟩ := drawUntil_answers (s := { s with work := { s.work with thr := threshold s.cfg.thresholdForm max } })
      (accept := fun r => decide (threshold s.cfg.thresholdForm max ≤ r)) h 0x07FFFE00078001E0 (by
        have : output 0x07FFFE00078001E0 = BitVec.allOnes 32 := by decide
        rw [this]
        exact decide_eq_true (by rw [BitVec.le_def, BitVec.toNat_allOnes]; omega))
    exact ⟨_, by rw [Option.map_eq_some_iff]; exact ⟨d, hd, rfl⟩⟩

/-- With INC odd SAMPLE's loop always answers (R174). -/
theorem sampleDraw_answers {s : State} (h : s.inc.getLsbD 0 = true) :
    ∃ d, drawUntil (fun r => decide (r ≠ u32Max)) retryFuel s = some d :=
  drawUntil_answers h 42 (by decide)

end Sys2Proof.Machine
end

