-- ==== Sys2Proof/Laws/Memory.lean ====
section
/-! SUPPORT. Laws/Memory.lean: reading after writing, and that every memory operation keeps the canonical form. -/

namespace Sys2Proof.Machine

theorem Memory.read_write_same (m : Memory) (a : Nat) (v : Byte) : (m.write a v).read a = some v := by
  induction m with
  | nil => simp [Memory.write, Memory.read]
  | cons c m ih =>
    obtain ⟨b, w⟩ := c
    simp only [Memory.write]
    split
    · simp [Memory.read]
    · split
      · simp [Memory.read]
      · rename_i h₁ h₂
        simp [Memory.read, h₂, ih]

theorem Memory.read_write_other (m : Memory) {a b : Nat} (v : Byte) (h : b ≠ a) : (m.write a v).read b = m.read b := by
  induction m with
  | nil => simp [Memory.write, Memory.read, h]
  | cons c m ih =>
    obtain ⟨d, w⟩ := c
    simp only [Memory.write]
    split
    · simp [Memory.read, h]
    · split
      · rename_i h₁ h₂
        subst h₂
        simp [Memory.read, h]
      · by_cases hb : b = d <;> simp [Memory.read, hb, ih]

theorem Memory.wfFrom_mono {m : Memory} {lo lo' : Nat} (h : lo' ≤ lo) (hm : Memory.wfFrom lo m = true) :
    Memory.wfFrom lo' m = true := by
  cases m with
  | nil => rfl
  | cons c m =>
    simp only [Memory.wfFrom, Bool.and_eq_true, decide_eq_true_eq] at hm ⊢
    exact ⟨⟨h.trans hm.1.1, hm.1.2⟩, hm.2⟩

theorem Memory.wfFrom_write {m : Memory} {lo a : Nat} (v : Byte) (ha : a < 2 ^ 64) (hlo : lo ≤ a)
    (hm : Memory.wfFrom lo m = true) : Memory.wfFrom lo (m.write a v) = true := by
  induction m generalizing lo with
  | nil =>
    simp only [Memory.write, Memory.wfFrom, Bool.and_eq_true, decide_eq_true_eq]
    exact ⟨⟨hlo, ha⟩, trivial⟩
  | cons c m ih =>
    obtain ⟨b, w⟩ := c
    simp only [Memory.wfFrom, Bool.and_eq_true, decide_eq_true_eq] at hm
    obtain ⟨⟨hb, hb'⟩, hm⟩ := hm
    simp only [Memory.write]
    split
    · rename_i hab
      simp only [Memory.wfFrom, Bool.and_eq_true, decide_eq_true_eq]
      exact ⟨⟨hlo, ha⟩, ⟨hab, hb'⟩, hm⟩
    · split
      · rename_i hab
        subst hab
        simp only [Memory.wfFrom, Bool.and_eq_true, decide_eq_true_eq]
        exact ⟨⟨hlo, ha⟩, hm⟩
      · simp only [Memory.wfFrom, Bool.and_eq_true, decide_eq_true_eq]
        exact ⟨⟨hb, hb'⟩, ih (by omega) hm⟩

/-- A byte write keeps the canonical form. -/
theorem Memory.wf_write {m : Memory} (a : Word64) (v : Byte) (hm : m.wf = true) : (m.write a.toNat v).wf = true :=
  Memory.wfFrom_write v a.isLt (Nat.zero_le _) hm

/-- Byte writes in any order keep the canonical form. -/
theorem applyWrites_wf (ws : List ByteWrite) {m : Memory} (hm : m.wf = true) : (applyWrites ws m).wf = true := by
  induction ws generalizing m with
  | nil => exact hm
  | cons w ws ih => exact ih (Memory.wf_write w.1 w.2 hm)

/-- Byte writes leave every address that none of them names as it was. -/
theorem applyWrites_read_other (ws : List ByteWrite) {m : Memory} {a : Nat} (h : ∀ w ∈ ws, w.1.toNat ≠ a) :
    (applyWrites ws m).read a = m.read a := by
  induction ws generalizing m with
  | nil => rfl
  | cons w ws ih =>
    simp only [applyWrites]
    rw [ih fun w' hw' => h w' (List.mem_cons_of_mem _ hw')]
    exact Memory.read_write_other _ _ (h w List.mem_cons_self).symm

/-- After byte writes an address reads as before or as one of the bytes written there. -/
theorem applyWrites_read_cases (ws : List ByteWrite) (m : Memory) (a : Nat) :
    (applyWrites ws m).read a = m.read a ∨ ∃ w ∈ ws, w.1.toNat = a ∧ (applyWrites ws m).read a = some w.2 := by
  induction ws generalizing m with
  | nil => exact .inl rfl
  | cons w ws ih =>
    simp only [applyWrites]
    rcases ih (m.write w.1.toNat w.2) with h | ⟨w', hw', ha, h⟩
    · by_cases hwa : w.1.toNat = a
      · subst hwa
        exact .inr ⟨w, List.mem_cons_self, rfl, by rw [h, Memory.read_write_same]⟩
      · exact .inl (by rw [h, Memory.read_write_other _ _ (Ne.symm hwa)])
    · exact .inr ⟨w', List.mem_cons_of_mem _ hw', ha, h⟩

/-- After the same byte writes on two memories an address reads the same in both, or in each as before. -/
theorem applyWrites_read_agree (ws : List ByteWrite) (m n : Memory) (a : Nat) :
    (applyWrites ws n).read a = (applyWrites ws m).read a ∨
      (applyWrites ws m).read a = m.read a ∧ (applyWrites ws n).read a = n.read a := by
  induction ws generalizing m n with
  | nil => exact .inr ⟨rfl, rfl⟩
  | cons w ws ih =>
    simp only [applyWrites]
    rcases ih (m.write w.1.toNat w.2) (n.write w.1.toNat w.2) with h | ⟨hm, hn⟩
    · exact .inl h
    · by_cases hwa : w.1.toNat = a
      · subst hwa
        exact .inl (by rw [hm, hn, Memory.read_write_same, Memory.read_write_same])
      · exact .inr ⟨by rw [hm, Memory.read_write_other _ _ (Ne.symm hwa)], by rw [hn, Memory.read_write_other _ _ (Ne.symm hwa)]⟩

/-- Where each address is written at most once, every write's byte is there afterwards. -/
theorem applyWrites_read_mem (ws : List ByteWrite) (m : Memory) (hd : (ws.map (·.1)).Nodup) {w : ByteWrite} (hw : w ∈ ws) :
    (applyWrites ws m).read w.1.toNat = some w.2 := by
  induction ws generalizing m with
  | nil => cases hw
  | cons x ws ih =>
    simp only [List.map_cons, List.nodup_cons, List.mem_map, not_exists, not_and] at hd
    rcases List.mem_cons.1 hw with rfl | hw
    · rw [applyWrites, applyWrites_read_other, Memory.read_write_same]
      intro w' hw' h
      exact hd.1 w' hw' (BitVec.eq_of_toNat_eq h)
    · exact ih _ hd.2 hw

end Sys2Proof.Machine
end

