-- ==== Sys2Proof/Laws/Fill.lean ====
section
/-! SUPPORT. Laws/Fill.lean: what FILL's body writes, byte by byte, and what its draws change (rules R160 to R162). -/

namespace Sys2Proof.Machine

/-- Byte k of a draw, as a number: bits 8k+7 to 8k. -/
theorem drawByte_eq (r : Word32) (k : Nat) : drawByte r k = BitVec.ofNat 8 (r.toNat / 256 ^ k) := by
  apply BitVec.eq_of_toNat_eq
  rw [drawByte, BitVec.extractLsb'_toNat, BitVec.toNat_ofNat, Nat.shiftRight_eq_div_pow, Nat.pow_mul]

theorem groupWrites_eq (base : Word64) (i : Nat) (r : Word32) (n : Nat) :
    groupWrites base i r n = (List.range n).map fun k => (base + BitVec.ofNat 64 (i + k), drawByte r k) := rfl

/-- What FILL's draws change: STATE by `n` advances, and the working registers. -/
def afterFill (s : State) (n idx : Nat) : State :=
  { s with
    stateReg := s.lcgAfter n
    work := { s.work with draws := s.work.draws + BitVec.ofNat 64 n, idx := idx } }

theorem fillGroups_eq (base : Word64) (q : Nat) (s : State) :
    fillGroups base q s =
      ((List.range (4 * q)).map fun i =>
          (base + BitVec.ofNat 64 (s.work.idx + i), drawByte (s.drawAt (i / 4)) (i % 4)),
        afterFill s q (s.work.idx + 4 * q)) := by
  induction q generalizing s with
  | zero => simp [fillGroups, afterFill]
  | succ q ih =>
    simp only [fillGroups, ih, Prod.mk.injEq, draw_work]
    constructor
    · rw [show 4 * (q + 1) = 4 + 4 * q by ring, List.range_add, List.map_append, List.map_map]
      congr 1
      apply List.map_congr_left
      intro i _
      simp only [Function.comp]
      rw [show (4 + i) / 4 = i / 4 + 1 by omega, show (4 + i) % 4 = i % 4 by omega, Nat.add_assoc]
      rfl
    · have h : s.work.draws + 1 + BitVec.ofNat 64 q = s.work.draws + BitVec.ofNat 64 (q + 1) := by
        rw [BitVec.add_assoc, Nat.add_comm q 1, BitVec.ofNat_add]; rfl
      unfold afterFill
      simp only [h]
      rw [show s.work.idx + 4 + 4 * q = s.work.idx + 4 * (q + 1) by ring]
      rfl

/-- The writes of FILL's body in ascending index order: byte i is R161's byte, at `base +_64 i`. -/
theorem fillRun_writes (base : Word64) (n : Nat) {s : State} (hs : s.work.idx = 0) :
    (fillRun base n s).1 = (List.range n).map fun i =>
      (base + BitVec.ofNat 64 i, drawByte (s.drawAt (i / 4)) (i % 4)) := by
  have hg := fillGroups_eq base (n / 4) s
  rw [hs] at hg
  simp only [Nat.zero_add] at hg
  have hsplit : List.range n = List.range (4 * (n / 4)) ++ (List.range (n % 4)).map (4 * (n / 4) + ·) := by
    rw [← List.range_add]; congr 1; omega
  have htail : groupWrites base (4 * (n / 4)) (s.drawAt (n / 4)) (n % 4) =
      ((List.range (n % 4)).map (4 * (n / 4) + ·)).map fun i =>
        (base + BitVec.ofNat 64 i, drawByte (s.drawAt (i / 4)) (i % 4)) := by
    rw [List.map_map, groupWrites_eq]
    apply List.map_congr_left
    intro k hk
    have := List.mem_range.1 hk
    simp only [Function.comp]
    rw [show (4 * (n / 4) + k) / 4 = n / 4 by omega, show (4 * (n / 4) + k) % 4 = k by omega]
  unfold fillRun
  rw [hsplit, List.map_append, ← htail]
  split
  · simp only [hg]; rfl
  · rename_i h
    have : n % 4 = 0 := by simp at h; omega
    rw [hg, this]
    simp [groupWrites]

/-- What FILL's body changes besides: STATE by R162's draw count, and the working registers. -/
theorem fillRun_state (base : Word64) (n : Nat) (s : State) :
    ∃ idx, (fillRun base n s).2 = afterFill s (fillDraws s.cfg n) idx := by
  have hg := fillGroups_eq base (n / 4) s
  have hadd : ∀ q, s.work.draws + BitVec.ofNat 64 q + 1 = s.work.draws + BitVec.ofNat 64 (q + 1) := fun q => by
    rw [BitVec.add_assoc, BitVec.ofNat_add]; rfl
  unfold fillRun fillDraws
  split
  · rename_i h
    refine ⟨s.work.idx + 4 * (n / 4), ?_⟩
    have hq : (if s.cfg.fillEmptyTailDraw = true then n / 4 + 1 else (n + 3) / 4) = n / 4 + 1 := by
      split
      · rfl
      · rename_i hc
        have : n % 4 > 0 := by simpa [hc] using h
        omega
    rw [hq]
    simp only [hg]
    have hl : s.lcgAfter (n / 4 + 1) = advance s.inc (s.lcgAfter (n / 4)) := Function.iterate_succ_apply' _ _ _
    unfold draw afterFill
    simp only [hadd, hl]
  · rename_i h
    have hq : (if s.cfg.fillEmptyTailDraw = true then n / 4 + 1 else (n + 3) / 4) = n / 4 := by
      simp only [Bool.or_eq_true, decide_eq_true_eq, not_or] at h
      rw [if_neg h.2]
      omega
    rw [hq]
    exact ⟨_, by rw [hg]⟩

/-- FILL's addresses are all different: there are fewer than 2^64 of them. -/
theorem fillAddr_injective (s : State) {i j : Nat} (hi : i < 2 ^ 64) (hj : j < 2 ^ 64) (h : s.fillAddr i = s.fillAddr j) :
    i = j := by
  unfold State.fillAddr at h
  have := congrArg BitVec.toNat ((BitVec.add_right_inj s.la0).1 h)
  simp only [BitVec.toNat_ofNat] at this
  omega

end Sys2Proof.Machine
end

