-- ==== Sys2Proof/Laws/Exec.lean ====
section
/-! SUPPORT. Laws/Exec.lean: one spec lemma for each shared ending of a command: the gate of R232, ending in an error (R201), and
completion with a value after draws (R73, R204). -/

namespace Sys2Proof.Machine

theorem requireSeeded_of_seeded {s : State} (body : State → Result) (h : s.seeded = true) :
    requireSeeded s body = body (startCommand s) := by
  simp [requireSeeded, h]

theorem requireSeeded_of_unseeded {s : State} (body : State → Result) (h : s.seeded = false) :
    requireSeeded s body = .next (raiseError .unseeded .noParam 0 s) := by
  simp [requireSeeded, h]

theorem SurroundingsKept.refl (s : State) : SurroundingsKept s s :=
  ⟨rfl, rfl, rfl, rfl, rfl, rfl, rfl, rfl, rfl, rfl, rfl, rfl⟩

/-- Ending in an error reports it and changes nothing else. -/
theorem raiseError_ends (c : ErrCode) (p : Param) (v : Word64) (s : State) : ErrorEnds s (raiseError c p v s) c p v :=
  ⟨rfl, rfl, rfl, rfl, rfl, rfl, rfl, ⟨rfl, rfl, rfl⟩, fun _ => rfl, SurroundingsKept.refl s⟩

/-- Raising an error is the same before and after the working registers are emptied. -/
theorem raiseError_startCommand (c : ErrCode) (p : Param) (v : Word64) (s : State) :
    raiseError c p v (startCommand s) = raiseError c p v s := rfl

/-- The state after a value-producing command: RESULT = `v` after `k` draws. -/
def valueState (s : State) (k : Nat) (v : Word64) : State :=
  { s with
    stateReg := s.lcgAfter k, result := v, draws := BitVec.ofNat 64 k, err := .noError, param := .noParam, errval := 0,
    busy := false, work := Work.idle, overtaken := [] }

theorem valueState_ends (s : State) (k : Nat) (v : Word64) : ValueEnds s (valueState s k v) v k :=
  ⟨rfl, rfl, rfl, rfl, ⟨rfl, rfl, rfl, rfl, rfl⟩, rfl, fun _ => rfl, SurroundingsKept.refl s⟩

/-- One raw draw and completion with a value. -/
theorem completeValue_draw (s : State) (v : Word64) : completeValue v (draw (startCommand s)).2 = valueState s 1 v := rfl

/-- Completion with a value and no draw. -/
theorem completeValue_noDraw (s : State) (v : Word64) : completeValue v (startCommand s) = valueState s 0 v := rfl

/-- A command that ends with a bounded draw: it gives that draw's value, or its retries are exhausted. -/
theorem finishValue_boundedDraw (max : Word32) (s : State) (format : Word32 → Word64) :
    (∃ v k, BoundedGives s max v k ∧
        finishValue format (boundedDraw max (startCommand s)) = .next (valueState s k (format v))) ∨
      (boundedDraw max (startCommand s) = none ∧
        finishValue format (boundedDraw max (startCommand s)) = .fault .retryExhausted) := by
  cases h : boundedDraw max (startCommand s) with
  | none => exact .inr ⟨rfl, rfl⟩
  | some d =>
    obtain ⟨v, u⟩ := d
    obtain ⟨k, c, th, hg, rfl⟩ := boundedDraw_eq_some h
    refine .inl ⟨v, k, hg, ?_⟩
    have h0 : Work.idle.draws + BitVec.ofNat 64 k = BitVec.ofNat 64 k := BitVec.zero_add _
    simp only [finishValue, completeValue, complete, startCommand, valueState, h0]
    rfl

/-- A command that ends with SAMPLE's loop: it gives the first draw that is not U32_MAX, or its retries are exhausted. -/
theorem finishValue_sampleDraw (s : State) (format : Word32 → Word64) :
    (∃ j, FirstAccepted s (· ≠ 0xFFFFFFFF) j ∧
        finishValue format (drawUntil (fun r => decide (r ≠ u32Max)) retryFuel (startCommand s)) =
          .next (valueState s (j + 1) (format (s.drawAt j)))) ∨
      (drawUntil (fun r => decide (r ≠ u32Max)) retryFuel (startCommand s) = none ∧
        finishValue format (drawUntil (fun r => decide (r ≠ u32Max)) retryFuel (startCommand s)) =
          .fault .retryExhausted) := by
  cases h : drawUntil (fun r => decide (r ≠ u32Max)) retryFuel (startCommand s) with
  | none => exact .inr ⟨rfl, rfl⟩
  | some d =>
    obtain ⟨r, u⟩ := d
    obtain ⟨j, -, ⟨ha, hn⟩, rfl, rfl⟩ := drawUntil_eq_some.1 h
    refine .inl ⟨j, ⟨of_decide_eq_true ha, fun i hi hc => hn i hi (decide_eq_true hc)⟩, ?_⟩
    have h0 : Work.idle.draws + BitVec.ofNat 64 (j + 1) = BitVec.ofNat 64 (j + 1) := BitVec.zero_add _
    simp only [finishValue, completeValue, complete, startCommand, valueState, afterDraws, h0]
    rfl

/-- The loop's counter, from 0. -/
theorem idle_draws_add (k : Nat) : Work.idle.draws + BitVec.ofNat 64 k = BitVec.ofNat 64 k := BitVec.zero_add _

/-- The start of a bounded draw's loop. -/
def startBounded (max : Word32) (s : State) : State :=
  { startCommand s with
    work := { (startCommand s).work with thr := threshold (startCommand s).cfg.thresholdForm max } }

/-- Two machines with the same STATE, INC and parameters end a bounded draw with the same value after as many draws, or neither
ends it (R24, R129). -/
theorem finishValue_boundedDraw_congr (max : Word32) {s t : State} (format : Word32 → Word64) (hs : t.stateReg = s.stateReg)
    (hi : t.inc = s.inc) (hc : t.cfg = s.cfg) :
    (∃ v k, BoundedGives s max v k ∧
        finishValue format (boundedDraw max (startCommand s)) = .next (valueState s k (format v)) ∧
        finishValue format (boundedDraw max (startCommand t)) = .next (valueState t k (format v))) ∨
      (finishValue format (boundedDraw max (startCommand s)) = .fault .retryExhausted ∧
        finishValue format (boundedDraw max (startCommand t)) = .fault .retryExhausted) := by
  by_cases h0 : max = 0
  · refine .inl ⟨0, 0, .inl ⟨h0, rfl, rfl⟩, ?_, ?_⟩ <;> simp only [boundedDraw, if_pos h0] <;> rfl
  · have e : ∀ u : State, u.cfg = s.cfg → boundedDraw max (startCommand u) =
        (drawUntil (fun r => decide (threshold s.cfg.thresholdForm max ≤ r)) retryFuel (startBounded max u)).map
          fun d => (d.1 % max, d.2) := fun u hu => hu ▸ if_neg h0
    rcases drawUntil_congr (accept := fun r => decide (threshold s.cfg.thresholdForm max ≤ r)) (fuel := retryFuel)
        (s := startBounded max s) (t := startBounded max t) hs hi with ⟨j, ⟨ha, hn⟩, h₁, h₂⟩ | ⟨h₁, h₂⟩
    · refine .inl ⟨s.drawAt j % max, j + 1, .inr ⟨h0, j, ⟨of_decide_eq_true ha, fun i hi hc => hn i hi (decide_eq_true hc)⟩,
        rfl, rfl⟩, ?_, ?_⟩
      · rw [e s rfl, h₁]
        simp only [Option.map_some, finishValue, completeValue, complete, startBounded, startCommand, valueState, afterDraws,
          idle_draws_add]
        congr 2
      · rw [e t hc, h₂]
        simp only [Option.map_some, finishValue, completeValue, complete, startBounded, startCommand, valueState, afterDraws,
          idle_draws_add]
        congr 2
    · exact .inr ⟨by rw [e s rfl, h₁]; rfl, by rw [e t hc, h₂]; rfl⟩

/-- The same for SAMPLE's loop. -/
theorem finishValue_sampleDraw_congr {s t : State} (format : Word32 → Word64) (hs : t.stateReg = s.stateReg) (hi : t.inc = s.inc) :
    (∃ v k, finishValue format (drawUntil (fun r => decide (r ≠ u32Max)) retryFuel (startCommand s)) = .next (valueState s k v) ∧
        finishValue format (drawUntil (fun r => decide (r ≠ u32Max)) retryFuel (startCommand t)) = .next (valueState t k v)) ∨
      (finishValue format (drawUntil (fun r => decide (r ≠ u32Max)) retryFuel (startCommand s)) = .fault .retryExhausted ∧
        finishValue format (drawUntil (fun r => decide (r ≠ u32Max)) retryFuel (startCommand t)) = .fault .retryExhausted) := by
  rcases drawUntil_congr (accept := fun r => decide (r ≠ u32Max)) (fuel := retryFuel) (s := startCommand s) (t := startCommand t)
      hs hi with ⟨j, -, h₁, h₂⟩ | ⟨h₁, h₂⟩
  · refine .inl ⟨format (s.drawAt j), j + 1, ?_, ?_⟩
    · rw [h₁]
      simp only [finishValue, completeValue, complete, startCommand, valueState, afterDraws, idle_draws_add]
      rfl
    · rw [h₂]
      simp only [finishValue, completeValue, complete, startCommand, valueState, afterDraws, idle_draws_add]
      rfl
  · exact .inr ⟨by rw [h₁]; rfl, by rw [h₂]; rfl⟩

/-- The state after a FILL whose writes are all admitted. -/
def fillState (s : State) : State :=
  { s with
    stateReg := s.lcgAfter (fillDraws s.cfg (low32 s.la1).toNat)
    mem := applyWrites (notOvertaken s.overtaken
      ((List.range (low32 s.la1).toNat).map fun i => (s.fillAddr i, s.fillByteAt i))) s.mem
    draws := BitVec.ofNat 64 (fillDraws s.cfg (low32 s.la1).toNat)
    err := .noError, param := .noParam, errval := 0, busy := false, work := Work.idle, overtaken := [] }

/-- The writes of a running FILL, byte by byte (R161). -/
theorem fillRun_startCommand_writes (s : State) :
    (fillRun (fillBase (startCommand s)) (fillLength (startCommand s)) (startCommand s)).1 =
      (List.range (low32 s.la1).toNat).map fun i => (s.fillAddr i, s.fillByteAt i) := by
  rw [fillRun_writes _ _ rfl]
  apply List.map_congr_left
  intro i _
  rw [drawByte_eq]
  rfl

/-- FILL of a present buffer on a constructed engine: it completes when every one of its bytes is admitted, and otherwise has no
step. -/
theorem execFill_present {s : State} (h : s.seeded = true) :
    ((∀ i, i < (low32 s.la1).toNat → admits s.cfg (s.fillAddr i) = true) ∧ execFill true s = .next (fillState s)) ∨
      ((∃ i, i < (low32 s.la1).toNat ∧ admits s.cfg (s.fillAddr i) = false) ∧ execFill true s = .next s) := by
  obtain ⟨idx, hst⟩ := fillRun_state (fillBase (startCommand s)) (fillLength (startCommand s)) (startCommand s)
  have he : execFill true s =
      if ((List.range (low32 s.la1).toNat).map fun i => (s.fillAddr i, s.fillByteAt i)).all (fun w => admits s.cfg w.1) then
        .next (fillState s) else .next s := by
    unfold execFill
    rw [requireSeeded_of_seeded _ h]
    simp only [if_true, fillRun_startCommand_writes, hst]
    congr 2
    have h0 : ∀ k, Work.idle.draws + BitVec.ofNat 64 k = BitVec.ofNat 64 k := fun k => BitVec.zero_add _
    simp only [complete, afterFill, startCommand, fillState, h0]
    rfl
  rw [he]
  by_cases hall : ∀ i, i < (low32 s.la1).toNat → admits s.cfg (s.fillAddr i) = true
  · refine .inl ⟨hall, if_pos ?_⟩
    simpa [List.all_eq_true] using hall
  · refine .inr ⟨?_, if_neg ?_⟩
    · push Not at hall
      simpa using hall
    · simpa [List.all_eq_true] using hall

end Sys2Proof.Machine
end

