-- ==== Sys2Proof/Laws/Outcome.lean ====
section
/-! SUPPORT. Laws/Outcome.lean: everything the execution of a command can do, said once (rules R200 to R209), and the same for the
block's turn. -/

namespace Sys2Proof.Machine

/-- The argument and seeding errors of rule R200, with the condition under which a command ends in each. -/
inductive CommandError (s : State) : Instr → ErrCode → Param → Word64 → Prop where
  | unseeded {i : Instr} : i.isDrawing = true → s.seeded = false → CommandError s i .unseeded .noParam 0
  | belowMax : s.seeded = true → sint32 (low32 s.la0) < 0 →
      CommandError s .below .invalidArgument .max (sext32 (low32 s.la0))
  | rangeMin : s.seeded = true → sint32 (low32 s.la1) < sint32 (low32 s.la0) →
      CommandError s .range .invalidArgument .min (sext32 (low32 s.la0))
  | fillBuffer : s.seeded = true → CommandError s (.fill false) .nullBuffer .buffer 0

/-- Everything that executing a command can do. -/
inductive ExecOutcome (s : State) (i : Instr) : Result → Prop where
  /-- A construction command loads the engine. -/
  | constructed (seed stream : Word64) : i.isConstruction = true →
      ExecOutcome s i (.next (complete (construct seed stream (startCommand s))))
  /-- CLRSTAT clears OVR. -/
  | cleared : i = .clrstat → ExecOutcome s i (.next (complete { startCommand s with ovr := false }))
  /-- A drawing command ends in an error. -/
  | failed (c : ErrCode) (p : Param) (v : Word64) : i.isDrawing = true → CommandError s i c p v →
      ExecOutcome s i (.next (raiseError c p v s))
  /-- A value-producing command completes. -/
  | value (k : Nat) (v : Word64) : i.isDrawing = true → s.seeded = true → ExecOutcome s i (.next (valueState s k v))
  /-- FILL completes. -/
  | filled : i = .fill true → s.seeded = true → ExecOutcome s i (.next (fillState s))
  /-- FILL has no step: the platform does not admit one of its writes. -/
  | stuck (j : Nat) : i = .fill true → s.seeded = true → j < (low32 s.la1).toNat → admits s.cfg (s.fillAddr j) = false →
      ExecOutcome s i (.next s)
  /-- The fuel of a retry loop is exhausted: only where INC is even. -/
  | exhausted : i.isDrawing = true → s.seeded = true → s.inc.getLsbD 0 = false → ExecOutcome s i (.fault .retryExhausted)

theorem ExecOutcome.ofBounded (s : State) {i : Instr} (hi : i.isDrawing = true) (hs : s.seeded = true) (max : Word32)
    (format : Word32 → Word64) : ExecOutcome s i (finishValue format (boundedDraw max (startCommand s))) := by
  rcases finishValue_boundedDraw max s format with ⟨v, k, -, h⟩ | ⟨hn, h⟩ <;> rw [h]
  · exact .value k _ hi hs
  · refine .exhausted hi hs (Bool.eq_false_iff.2 fun hodd => ?_)
    obtain ⟨d, hd⟩ := boundedDraw_answers (max := max) (s := startCommand s) hodd
    rw [hd] at hn
    cases hn

/-- Executing a command does one of the things listed. -/
theorem exec_outcome (i : Instr) (s : State) : ExecOutcome s i (exec i s) := by
  cases hs : s.seeded with
  | false =>
    have hu : ∀ {j : Instr} (body : State → Result), j.isDrawing = true → ExecOutcome s j (requireSeeded s body) := by
      intro j body hj
      rw [requireSeeded_of_unseeded _ hs]
      exact .failed _ _ _ hj (.unseeded hj hs)
    cases i with
    | seed => exact .constructed _ _ rfl
    | seedd => exact .constructed _ _ rfl
    | seedt => exact .constructed _ _ rfl
    | clrstat => exact .cleared rfl
    | nextu32 => unfold exec execNextu32; exact hu _ rfl
    | bounded => unfold exec execBounded; exact hu _ rfl
    | next => unfold exec execNext; exact hu _ rfl
    | below => unfold exec execBelow; exact hu _ rfl
    | range => unfold exec execRange; exact hu _ rfl
    | fill present => unfold exec execFill; exact hu _ rfl
    | sample => unfold exec execSample; exact hu _ rfl
  | true =>
    have hv : ∀ {j : Instr} (body : State → Result), ExecOutcome s j (body (startCommand s)) →
        ExecOutcome s j (requireSeeded s body) := by
      intro j body h
      rwa [requireSeeded_of_seeded _ hs]
    cases i with
    | seed => exact .constructed _ _ rfl
    | seedd => exact .constructed _ _ rfl
    | seedt => exact .constructed _ _ rfl
    | clrstat => exact .cleared rfl
    | nextu32 => unfold exec execNextu32; exact hv _ (.value 1 (zext32 (output s.stateReg)) rfl hs)
    | next => unfold exec execNext; exact hv _ (.value 1 (zext32 (output s.stateReg >>> 1)) rfl hs)
    | bounded => unfold exec execBounded; exact hv _ (.ofBounded s rfl hs _ _)
    | below =>
      unfold exec execBelow
      refine hv _ ?_
      split
      · rename_i h
        exact .failed _ _ _ rfl (.belowMax hs h)
      · exact .ofBounded s rfl hs _ _
    | range =>
      unfold exec execRange
      refine hv _ ?_
      split
      · rename_i h
        exact .failed _ _ _ rfl (.rangeMin hs h)
      · split
        · exact .value 0 (sext32 (low32 s.la0)) rfl hs
        · exact .ofBounded s rfl hs _ _
    | fill present =>
      cases present with
      | false => unfold exec execFill; exact hv _ (.failed .nullBuffer .buffer 0 rfl (.fillBuffer hs))
      | true =>
        show ExecOutcome s _ (execFill true s)
        rcases execFill_present hs with ⟨-, h⟩ | ⟨⟨j, hj, ha⟩, h⟩ <;> rw [h]
        · exact .filled rfl hs
        · exact .stuck j rfl hs hj ha
    | sample =>
      unfold exec execSample
      refine hv _ ?_
      rcases finishValue_sampleDraw s sampleBits with ⟨j, -, h⟩ | ⟨hn, h⟩ <;> rw [h]
      · exact .value _ _ rfl hs
      · refine .exhausted rfl hs (Bool.eq_false_iff.2 fun hodd => ?_)
        obtain ⟨d, hd⟩ := sampleDraw_answers (s := startCommand s) hodd
        rw [hd] at hn
        cases hn

/-- Every drawing command ends in UNSEEDED on an unseeded engine (R200, R232). -/
theorem exec_of_unseeded {i : Instr} {s : State} (hi : i.isDrawing = true) (hs : s.seeded = false) :
    exec i s = .next (raiseError .unseeded .noParam 0 s) := by
  cases i with
  | seed => cases hi
  | seedd => cases hi
  | seedt => cases hi
  | clrstat => cases hi
  | nextu32 => unfold exec execNextu32; exact requireSeeded_of_unseeded _ hs
  | bounded => unfold exec execBounded; exact requireSeeded_of_unseeded _ hs
  | next => unfold exec execNext; exact requireSeeded_of_unseeded _ hs
  | below => unfold exec execBelow; exact requireSeeded_of_unseeded _ hs
  | range => unfold exec execRange; exact requireSeeded_of_unseeded _ hs
  | fill present => unfold exec execFill; exact requireSeeded_of_unseeded _ hs
  | sample => unfold exec execSample; exact requireSeeded_of_unseeded _ hs

theorem runCommand_legal {s : State} {i : Instr} (h : decode s.lcmd = .legal i) : runCommand s = exec i s := by
  simp [runCommand, h]

theorem runCommand_illegal {s : State} {why : IllegalCmd} (h : decode s.lcmd = .illegal why) :
    runCommand s = .next (raiseError .illegalCmd .noParam 0 s) := by
  simp [runCommand, h]

/-- Everything that running the latched command can do: an illegal word completes with ILLEGAL_CMD, a legal one is executed. -/
theorem runCommand_cases (s : State) :
    (∃ why, decode s.lcmd = .illegal why ∧ runCommand s = .next (raiseError .illegalCmd .noParam 0 s)) ∨
      ∃ i, decode s.lcmd = .legal i ∧ runCommand s = exec i s ∧ ExecOutcome s i (runCommand s) := by
  unfold runCommand
  cases h : decode s.lcmd with
  | illegal why => exact .inl ⟨why, rfl, rfl⟩
  | legal i => exact .inr ⟨i, rfl, rfl, exec_outcome i s⟩

end Sys2Proof.Machine
end

