-- ==== Sys2Proof/Laws/Agree.lean ====
section
/-! SUPPORT. Laws/Agree.lean: what a command does depends on the engine, the parameters and the latched operands alone. -/

namespace Sys2Proof.Machine

/-- Two results are the same end of a command, reached from `s` and from `t`. -/
inductive EndsAlike (s t : State) : Result → Result → Prop
  | constructed (a b : Word64) : EndsAlike s t (.next (complete (construct a b (startCommand s)))) (.next (complete (construct a b (startCommand t))))
  | cleared : EndsAlike s t (.next (complete { startCommand s with ovr := false })) (.next (complete { startCommand t with ovr := false }))
  | failed (c : ErrCode) (p : Param) (v : Word64) : EndsAlike s t (.next (raiseError c p v s)) (.next (raiseError c p v t))
  | value (k : Nat) (v : Word64) : EndsAlike s t (.next (valueState s k v)) (.next (valueState t k v))
  | filled : EndsAlike s t (.next (fillState s)) (.next (fillState t))
  | stuck : EndsAlike s t (.next s) (.next t)
  | exhausted : EndsAlike s t (.fault .retryExhausted) (.fault .retryExhausted)

/-- What a command does depends on STATE, INC, SEEDED, the parameters and the latched operands alone (R24, R129): from two states
that agree on those, every command ends alike. -/
theorem exec_endsAlike (i : Instr) {s t : State} (h0 : t.seeded = s.seeded) (h1 : t.stateReg = s.stateReg) (h2 : t.inc = s.inc)
    (h3 : t.cfg = s.cfg) (h4 : t.la0 = s.la0) (h5 : t.la1 = s.la1) (h6 : t.lt = s.lt) :
    EndsAlike s t (exec i s) (exec i t) := by
  cases hd : i.isDrawing with
  | false =>
    cases i with
    | nextu32 => cases hd
    | bounded => cases hd
    | next => cases hd
    | below => cases hd
    | range => cases hd
    | fill present => cases hd
    | sample => cases hd
    | seed =>
      have : exec .seed t = .next (complete (construct s.la0 s.la1 (startCommand t))) := by rw [← h4, ← h5]; rfl
      rw [this]; exact .constructed _ _
    | seedd =>
      have : exec .seedd t = .next (complete (construct s.la0 s.cfg.defaultStream (startCommand t))) := by rw [← h4, ← h3]; rfl
      rw [this]; exact .constructed _ _
    | seedt =>
      have : exec .seedt t = .next (complete (construct s.lt s.cfg.defaultStream (startCommand t))) := by rw [← h6, ← h3]; rfl
      rw [this]; exact .constructed _ _
    | clrstat => exact .cleared
  | true =>
  cases hs : s.seeded with
  | false => rw [exec_of_unseeded hd hs, exec_of_unseeded hd (h0.trans hs)]; exact .failed _ _ _
  | true =>
    have ht := h0.trans hs
    have hb : ∀ max format, EndsAlike s t (finishValue format (boundedDraw max (startCommand s)))
        (finishValue format (boundedDraw max (startCommand t))) := by
      intro max format
      rcases finishValue_boundedDraw_congr max format h1 h2 h3 with ⟨v, k, -, e1, e2⟩ | ⟨e1, e2⟩ <;> rw [e1, e2]
      · exact .value _ _
      · exact .exhausted
    cases i with
    | seed => cases hd
    | seedd => cases hd
    | seedt => cases hd
    | clrstat => cases hd
    | nextu32 =>
      unfold exec execNextu32
      rw [requireSeeded_of_seeded _ hs, requireSeeded_of_seeded _ ht]
      have : ∀ u, completeValue (zext32 (draw (startCommand u)).1) (draw (startCommand u)).2 =
          valueState u 1 (zext32 (output u.stateReg)) := fun _ => rfl
      simp only [this, h1]; exact .value _ _
    | next =>
      unfold exec execNext
      rw [requireSeeded_of_seeded _ hs, requireSeeded_of_seeded _ ht]
      have : ∀ u, completeValue (zext32 ((draw (startCommand u)).1 >>> 1)) (draw (startCommand u)).2 =
          valueState u 1 (zext32 (output u.stateReg >>> 1)) := fun _ => rfl
      simp only [this, h1]; exact .value _ _
    | bounded =>
      unfold exec execBounded
      rw [requireSeeded_of_seeded _ hs, requireSeeded_of_seeded _ ht]
      have : operand0 (startCommand t) = operand0 (startCommand s) := congrArg low32 h4
      rw [this]; exact hb _ _
    | below =>
      unfold exec execBelow
      rw [requireSeeded_of_seeded _ hs, requireSeeded_of_seeded _ ht]
      have : operand0 (startCommand t) = operand0 (startCommand s) := congrArg low32 h4
      simp only [this]
      split
      · exact .failed _ _ _
      · exact hb _ _
    | range =>
      unfold exec execRange
      rw [requireSeeded_of_seeded _ hs, requireSeeded_of_seeded _ ht]
      have e0 : operand0 (startCommand t) = operand0 (startCommand s) := congrArg low32 h4
      have e1 : operand1 (startCommand t) = operand1 (startCommand s) := congrArg low32 h5
      simp only [e0, e1]
      split
      · exact .failed _ _ _
      · split
        · exact .value 0 _
        · exact hb _ _
    | fill p =>
      cases p with
      | false =>
        change EndsAlike s t (execFill false s) (execFill false t)
        unfold execFill
        rw [requireSeeded_of_seeded _ hs, requireSeeded_of_seeded _ ht]
        exact .failed _ _ _
      | true =>
        change EndsAlike s t (execFill true s) (execFill true t)
        have ea : ∀ i, t.fillAddr i = s.fillAddr i := fun i => by unfold State.fillAddr; rw [h4]
        rcases execFill_present hs with ⟨a, e⟩ | ⟨⟨j, hj, a⟩, e⟩ <;>
          rcases execFill_present ht with ⟨a', e'⟩ | ⟨⟨j', hj', a'⟩, e'⟩ <;> rw [e, e']
        · exact .filled
        · rw [h5] at hj'; rw [h3, ea, a j' hj'] at a'; cases a'
        · have := a' j (by rw [h5]; exact hj); rw [h3, ea, a] at this; cases this
        · exact .stuck
    | sample =>
      unfold exec execSample
      rw [requireSeeded_of_seeded _ hs, requireSeeded_of_seeded _ ht]
      rcases finishValue_sampleDraw_congr sampleBits h1 h2 with ⟨v, k, e1, e2⟩ | ⟨e1, e2⟩ <;> rw [e1, e2]
      · exact .value _ _
      · exact .exhausted

/-- Commands that end alike on machines with the same STATE, INC and parameters, the same latched operands and the same bytes
overtaken leave the same bytes overtaken, and each byte of memory reads the same on both or is written on neither. -/
theorem EndsAlike.sameBytes {s t u v : State} {r r' : Result} (h : EndsAlike s t r r') (hr : r = .next u) (hr' : r' = .next v)
    (h1 : t.stateReg = s.stateReg) (h2 : t.inc = s.inc) (h4 : t.la0 = s.la0) (h5 : t.la1 = s.la1)
    (ho : t.overtaken = s.overtaken) :
    v.overtaken = u.overtaken ∧
      ∀ a, v.mem.read a = u.mem.read a ∨ u.mem.read a = s.mem.read a ∧ v.mem.read a = t.mem.read a := by
  cases h with
  | constructed | cleared | failed | value => cases hr; cases hr'; exact ⟨rfl, fun _ => .inr ⟨rfl, rfl⟩⟩
  | stuck => cases hr; cases hr'; exact ⟨ho, fun _ => .inr ⟨rfl, rfl⟩⟩
  | exhausted => cases hr
  | filled =>
    cases hr; cases hr'
    refine ⟨rfl, fun a => ?_⟩
    have hw : ∀ i, (t.fillAddr i, t.fillByteAt i) = (s.fillAddr i, s.fillByteAt i) := fun i => by
      unfold State.fillAddr State.fillByteAt State.drawAt State.lcgAfter
      rw [h1, h2, h4]
    simp only [fillState, h5, ho, hw]
    exact applyWrites_read_agree _ _ _ a

end Sys2Proof.Machine
end

