-- ==== Sys2Proof/Laws/Binary64.lean ====
section
/-! SUPPORT. Laws/Binary64.lean: the value of the binary64 pattern SAMPLE builds, and where binary64 values lie (rules R12, R172). -/

namespace Sys2Proof.Machine

theorem bitLength_bounds {n : Nat} (h : 0 < n) : 2 ^ (bitLength n - 1) ≤ n ∧ n < 2 ^ bitLength n ∧ 1 ≤ bitLength n := by
  have h0 : n ≠ 0 := h.ne'
  simp only [bitLength, if_neg h0, Nat.add_sub_cancel]
  exact ⟨Nat.log2_self_le h0, Nat.lt_log2_self, by omega⟩

/-- The bit length of a number is the only exponent whose power of two bounds it from above and whose half does not. -/
theorem bitLength_eq {n l : Nat} (h : 2 ^ l ≤ n) (h' : n < 2 ^ (l + 1)) : bitLength n = l + 1 := by
  have hn : 0 < n := lt_of_lt_of_le (by positivity) h
  obtain ⟨h1, h2, h3⟩ := bitLength_bounds hn
  have a := (Nat.pow_lt_pow_iff_right (a := 2) (by norm_num)).1 (h.trans_lt h2)
  have b := (Nat.pow_lt_pow_iff_right (a := 2) (by norm_num)).1 (h1.trans_lt h')
  omega

/-- The fields of the pattern R172 describes. -/
theorem encodeBinary64_toNat {q s : Nat} (h0 : 0 < q) (hq : q < 2 ^ 53) (hs : s ≤ 12) :
    (encodeBinary64 q s).toNat = (bitLength q + s + 958) * 2 ^ 52 + (q - 2 ^ (bitLength q - 1)) * 2 ^ (53 - bitLength q) ∧
      (q - 2 ^ (bitLength q - 1)) * 2 ^ (53 - bitLength q) < 2 ^ 52 ∧ bitLength q ≤ 53 := by
  obtain ⟨h1, h2, h3⟩ := bitLength_bounds h0
  have hl : bitLength q ≤ 53 := by
    have := (Nat.pow_lt_pow_iff_right (a := 2) (by norm_num)).1 (h1.trans_lt hq)
    omega
  have hm : (q - 2 ^ (bitLength q - 1)) * 2 ^ (53 - bitLength q) < 2 ^ 52 := by
    have hpow : 2 ^ bitLength q = 2 * 2 ^ (bitLength q - 1) := by
      rw [← pow_succ']; congr 1; omega
    calc (q - 2 ^ (bitLength q - 1)) * 2 ^ (53 - bitLength q) < 2 ^ (bitLength q - 1) * 2 ^ (53 - bitLength q) :=
          Nat.mul_lt_mul_of_pos_right (by omega) (by positivity)
      _ = 2 ^ 52 := by rw [← pow_add]; congr 1; omega
  refine ⟨?_, hm, hl⟩
  unfold encodeBinary64
  rw [BitVec.toNat_ofNat, Nat.mod_eq_of_lt]
  omega

/-- The pattern of a normal result has the value it stands for, and its bit 0 is that of q where q has 53 bits. -/
theorem binary64Value_encode {q s : Nat} (h0 : 0 < q) (hq : q < 2 ^ 53) (hs : s ≤ 12) :
    binary64Value (encodeBinary64 q s) = q * 2 ^ ((s : ℤ) - 64) ∧ Binary64Finite (encodeBinary64 q s) ∧
      (2 ^ 52 ≤ q → (encodeBinary64 q s).getLsbD 0 = decide (q % 2 = 1)) := by
  obtain ⟨h1, h2, h3⟩ := bitLength_bounds h0
  obtain ⟨hn, hm, hl⟩ := encodeBinary64_toNat h0 hq hs
  generalize hM : (q - 2 ^ (bitLength q - 1)) * 2 ^ (53 - bitLength q) = m at hn hm
  have he : ((encodeBinary64 q s).extractLsb' 52 11).toNat = bitLength q + s + 958 := by
    rw [BitVec.extractLsb'_toNat, hn, Nat.shiftRight_eq_div_pow]; omega
  have hf : ((encodeBinary64 q s).extractLsb' 0 52).toNat = m := by
    rw [BitVec.extractLsb'_toNat, hn, Nat.shiftRight_eq_div_pow]; omega
  have hmsb : (encodeBinary64 q s).msb = false := by
    rw [BitVec.msb_eq_decide, hn]; simp; omega
  have hq2 : 2 ^ 52 + m = q * 2 ^ (53 - bitLength q) := by
    have hpow : 2 ^ 52 = 2 ^ (bitLength q - 1) * 2 ^ (53 - bitLength q) := by rw [← pow_add]; congr 1; omega
    rw [← hM, hpow, ← Nat.add_mul, Nat.add_sub_cancel' h1]
  refine ⟨?_, ?_, fun h52 => ?_⟩
  · unfold binary64Value
    simp only [he, hf, hmsb, Bool.false_eq_true, if_false, one_mul]
    rw [if_neg (by omega), hq2, Nat.cast_mul, Nat.cast_pow, Nat.cast_ofNat, mul_assoc]
    rw [← zpow_natCast, ← zpow_add₀ (by norm_num)]
    exact congrArg (fun z : ℤ => (q : ℚ) * 2 ^ z) (by omega)
  · intro hc
    have := congrArg BitVec.toNat hc
    rw [he, show (0x7FF : BitVec 11).toNat = 2047 from rfl] at this
    omega
  · have hb : bitLength q = 53 := bitLength_eq (l := 52) h52 (by omega)
    rw [hb] at hM hn
    rw [Nat.sub_self, pow_zero, mul_one] at hM
    rw [BitVec.getLsbD, hn, Nat.testBit_zero]
    refine decide_eq_decide.2 ?_
    omega

/-- A binary64 value, in units of 2^-k, is a whole multiple of 2^s or smaller than 2^(52 + s) in magnitude. -/
theorem binary64_grid (c : Word64) (s : Nat) {k : Nat} (hk : k ≤ 1074) :
    (∃ m : ℤ, binary64Value c * 2 ^ (k : ℤ) = m * 2 ^ s) ∨ |binary64Value c * 2 ^ (k : ℤ)| < 2 ^ (52 + s) := by
  unfold binary64Value
  have hf : (c.extractLsb' 0 52).toNat < 2 ^ 52 := (c.extractLsb' 0 52).isLt
  generalize (c.extractLsb' 0 52).toNat = f at *
  generalize (c.extractLsb' 52 11).toNat = e at *
  have hsgn : |(if c.msb then (-1 : ℚ) else 1)| = 1 := by split <;> simp
  by_cases h : e ≠ 0 ∧ s + 1075 ≤ e + k
  · left
    obtain ⟨he, h⟩ := h
    refine ⟨(if c.msb then -1 else 1) * ((2 ^ 52 + f : ℕ) : ℤ) * 2 ^ (e + k - 1075 - s), ?_⟩
    simp only [if_neg he]
    have hz : (2 : ℚ) ^ ((e : ℤ) - 1075) * 2 ^ (k : ℤ) = 2 ^ (e + k - 1075 - s) * 2 ^ s := by
      rw [← zpow_add₀ (by norm_num), ← pow_add, ← zpow_natCast]
      exact congrArg (fun z : ℤ => (2 : ℚ) ^ z) (by omega)
    rw [mul_assoc, mul_assoc, hz, Int.cast_mul, Int.cast_mul, Int.cast_natCast]
    split <;> push_cast <;> ring
  · right
    rw [mul_assoc, abs_mul, hsgn, one_mul]
    by_cases he : e = 0
    · simp only [if_pos he]
      rw [mul_assoc, ← zpow_add₀ (by norm_num), abs_of_nonneg (by positivity)]
      have h1 : (f : ℚ) < 2 ^ 52 := by exact_mod_cast hf
      have h2 : (2 : ℚ) ^ ((-1074 : ℤ) + k) ≤ 1 := zpow_le_one_of_nonpos₀ (by norm_num) (by omega)
      calc (f : ℚ) * 2 ^ ((-1074 : ℤ) + k) ≤ f * 1 := by gcongr
        _ < 2 ^ 52 := by rw [mul_one]; exact h1
        _ ≤ 2 ^ (52 + s) := pow_le_pow_right₀ (by norm_num) (by omega)
    · simp only [if_neg he]
      rw [mul_assoc, ← zpow_add₀ (by norm_num), abs_of_nonneg (by positivity)]
      have h1 : ((2 ^ 52 + f : ℕ) : ℚ) < 2 ^ 53 := by exact_mod_cast (by omega : 2 ^ 52 + f < 2 ^ 53)
      have h2 : (2 : ℚ) ^ ((e : ℤ) - 1075 + k) ≤ 2 ^ ((s : ℤ) - 1) := zpow_le_zpow_right₀ (by norm_num) (by omega)
      calc ((2 ^ 52 + f : ℕ) : ℚ) * 2 ^ ((e : ℤ) - 1075 + k) < 2 ^ 53 * 2 ^ ((e : ℤ) - 1075 + k) := by gcongr
        _ ≤ 2 ^ 53 * 2 ^ ((s : ℤ) - 1) := by gcongr
        _ = 2 ^ (52 + s) := by
          rw [← zpow_natCast, ← zpow_natCast, ← zpow_add₀ (by norm_num)]
          exact congrArg (fun z : ℤ => (2 : ℚ) ^ z) (by push_cast; omega)

end Sys2Proof.Machine
end

