-- ==== Sys2Proof/Laws/Decode.lean ====
section
/-! SUPPORT. Laws/Decode.lean: the fields of a word and the word of fields are inverse (rule R70), the fields as numbers, and
`decode` in terms of R74's checks. -/

namespace Sys2Proof

theorem CmdFields.res_ofWord (w : Word32) : (CmdFields.ofWord w).res.toNat = w.toNat / 2 ^ 9 := by
  have := w.isLt
  simp only [CmdFields.ofWord, BitVec.extractLsb'_toNat, Nat.shiftRight_eq_div_pow]
  omega

theorem CmdFields.opcode_ofWord (w : Word32) : (CmdFields.ofWord w).opcode.toNat = w.toNat % 2 ^ 8 := by
  simp [CmdFields.ofWord, BitVec.extractLsb'_toNat]

theorem CmdFields.p_ofWord (w : Word32) : (CmdFields.ofWord w).p.toNat = w.toNat / 2 ^ 8 % 2 := by
  simp only [CmdFields.ofWord, BitVec.getLsbD, Nat.testBit_eq_decide_div_mod_eq]
  rcases Nat.mod_two_eq_zero_or_one (w.toNat / 2 ^ 8) with h | h <;> rw [h] <;> rfl

theorem CmdFields.toWord_toNat (f : CmdFields) :
    f.toWord.toNat = f.res.toNat * 2 ^ 9 + f.p.toNat * 2 ^ 8 + f.opcode.toNat := by
  have h₁ := f.res.isLt
  have h₂ := f.opcode.isLt
  have h₃ := f.p.toNat_lt
  rw [CmdFields.toWord, BitVec.toNat_ofNat]
  omega

theorem CmdFields.toWord_ofWord (w : Word32) : (CmdFields.ofWord w).toWord = w := by
  apply BitVec.eq_of_toNat_eq
  rw [toWord_toNat, res_ofWord, opcode_ofWord, p_ofWord]
  omega

theorem CmdFields.ofWord_toWord (f : CmdFields) : CmdFields.ofWord f.toWord = f := by
  have hr : (CmdFields.ofWord f.toWord).res = f.res := by
    apply BitVec.eq_of_toNat_eq
    have h₂ := f.opcode.isLt
    have h₃ := f.p.toNat_lt
    rw [res_ofWord, toWord_toNat]; omega
  have ho : (CmdFields.ofWord f.toWord).opcode = f.opcode := by
    apply BitVec.eq_of_toNat_eq
    have h₂ := f.opcode.isLt
    rw [opcode_ofWord, toWord_toNat]; omega
  have hp : (CmdFields.ofWord f.toWord).p = f.p := by
    have h₂ := f.opcode.isLt
    have h₃ := f.p.toNat_lt
    have : (CmdFields.ofWord f.toWord).p.toNat = f.p.toNat := by rw [p_ofWord, toWord_toNat]; omega
    cases h : f.p <;> cases h' : (CmdFields.ofWord f.toWord).p <;> simp_all
  calc CmdFields.ofWord f.toWord
      = ⟨(CmdFields.ofWord f.toWord).opcode, (CmdFields.ofWord f.toWord).p, (CmdFields.ofWord f.toWord).res⟩ := rfl
    _ = f := by rw [hr, ho, hp]

end Sys2Proof
end

