-- ==== Sys2Proof/Laws/PerInstr.lean ====
section
/-! SUPPORT. Laws/PerInstr.lean: statements about every command as syntax, one lemma per constructor. -/

/-- The word of a well-formed command has the fields of rule R70: its OPCODE, its P and RES = 0; none of R74's clauses holds. -/
def Sys2Proof.Laws.EncodedFields.Statement (i : Sys2Proof.Instr) : Prop :=
  i.wellFormed = true →
    (Sys2Proof.encode i).extractLsb' 0 8 = i.opcode ∧ (Sys2Proof.encode i).getLsbD 8 = i.bufferBit ∧
      (Sys2Proof.encode i).extractLsb' 9 23 = 0 ∧ (Sys2Proof.CmdFields.ofWord (Sys2Proof.encode i)).wellFormed = true

namespace Sys2Proof.Laws.EncodedFields

theorem seed : Statement .seed := fun _ => by decide
theorem seedd : Statement .seedd := fun _ => by decide
theorem seedt : Statement .seedt := fun _ => by decide
theorem clrstat : Statement .clrstat := fun _ => by decide
theorem nextu32 : Statement .nextu32 := fun _ => by decide
theorem bounded : Statement .bounded := fun _ => by decide
theorem next : Statement .next := fun _ => by decide
theorem below : Statement .below := fun _ => by decide
theorem range : Statement .range := fun _ => by decide
theorem fill (present : Bool) : Statement (.fill present) := fun _ => by cases present <;> decide
theorem sample : Statement .sample := fun _ => by decide

end Sys2Proof.Laws.EncodedFields
end

