-- ==== Sys2Proof/Laws/Step.lean ====
section
/-! SUPPORT. Laws/Step.lean: one step, event by event, and what the port, the other agents and reset can do. -/

namespace Sys2Proof.Machine

theorem step_nil {s : State} (h : s.events = []) : step s = blockTurn s := by
  unfold step move; rw [h]

theorem step_cons {s : State} {e : Event} {rest : List Event} (h : s.events = e :: rest) :
    step s = takeEvent e { s with events := rest } := by
  unfold step move; rw [h]

theorem blockTurn_busy {s : State} (h : s.busy = true) : blockTurn s = runCommand s := by simp [blockTurn, h]

theorem blockTurn_idle {s : State} (h : s.busy = false) : blockTurn s = .next s := by simp [blockTurn, h]

/-- A run of the machine goes on from the next state. -/
theorem core_run_next {s t : State} (h : step s = .next t) (k : Nat) : Sys2Proof.core.run (k + 1) s = Sys2Proof.core.run k t := by
  have h' : Sys2Proof.core.step s = .next t := h
  simp only [Host.Core.run, h']

theorem core_run_zero (s : State) : Sys2Proof.core.run 0 s = .next s := rfl

/-- Latching TIME changes nothing but the count of free values. -/
theorem latchTime_snd (s : State) : ∃ f, (latchTime s).2 = { s with freeIdx := f } := by
  unfold latchTime
  split
  · exact ⟨s.freeIdx, rfl⟩
  · exact ⟨s.freeIdx + 1, rfl⟩

/-- Everything an issue changes. -/
theorem issue_cases (w : Word32) (s : State) :
    ∃ v f, (∀ t, s.time = some t → v = t) ∧ (s.time = none → v = Config.freeTime s.freeIdx) ∧
      issue w s = { s with
        busy := true, lcmd := w, la0 := s.arg0, la1 := s.arg1, lt := v, work := Work.idle, overtaken := [], freeIdx := f } := by
  obtain ⟨f, hf⟩ := latchTime_snd s
  refine ⟨(latchTime s).1, f, fun t ht => ?_, fun ht => ?_, ?_⟩
  · simp [latchTime, ht]
  · simp [latchTime, ht]
  · unfold issue
    rw [hf]

/-- The operands a command reads after its issue are ARG0's and ARG1's low halves at the issue (R37, R72). -/
theorem operand0_issue (w : Word32) (s : State) : operand0 (issue w s) = low32 s.arg0 := by
  obtain ⟨v, f, -, -, h⟩ := issue_cases w s
  rw [h]
  rfl

theorem operand1_issue (w : Word32) (s : State) : operand1 (issue w s) = low32 s.arg1 := by
  obtain ⟨v, f, -, -, h⟩ := issue_cases w s
  rw [h]
  rfl

/-- An offset and a width select a register exactly when they are that register's (R56). -/
theorem portSelect_eq_some {offset : Word64} {width : Nat} {r : PortReg} :
    portSelect offset width = some r ↔ offset = r.offset ∧ width = r.width := by
  constructor
  · intro h
    have := List.find?_some h
    simp only [decide_eq_true_eq] at this
    exact ⟨this.1.symm, this.2.symm⟩
  · rintro ⟨rfl, rfl⟩
    cases r <;> decide

/-- The step of the assembler's `wr`: its register is written with the literal modulo 2^64 (R77, log entry 26). -/
theorem step_wr {s : State} {rest : List Event} (r : PortReg) (m : Int)
    (h : s.events = HostOp.event s.cfg.portBase (.wr r m) :: rest) :
    step s = .next (portWrite r (BitVec.ofInt 64 m) { s with events := rest }) := by
  rw [step_cons h]
  simp only [HostOp.event, takeEvent, portAccess]
  have : portSelect (s.cfg.portBase + r.offset - s.cfg.portBase) r.width = some r :=
    portSelect_eq_some.2 ⟨by rw [BitVec.add_comm]; exact BitVec.add_sub_cancel _ _, rfl⟩
  rw [this]

/-- No write of a register that a host makes changes more than ARG0, ARG1 or OVR, but for one that issues a command. -/
theorem portWrite_cases (r : PortReg) (data : Word64) (s : State) :
    (s.busy = false ∧ r = .cmd ∧ portWrite r data s = issue (low32 data) s) ∨
      ∃ x y o, (o = s.ovr ∨ (s.busy = true ∧ o = true)) ∧
        portWrite r data s = { s with arg0 := x, arg1 := y, ovr := o } := by
  cases r with
  | cmd =>
    cases h : s.busy with
    | false => exact .inl ⟨rfl, rfl, by simp [portWrite, h]⟩
    | true => exact .inr ⟨s.arg0, s.arg1, true, .inr ⟨rfl, rfl⟩, by simp [portWrite, h]⟩
  | arg0 => exact .inr ⟨data, s.arg1, s.ovr, .inl rfl, rfl⟩
  | arg1 => exact .inr ⟨s.arg0, data, s.ovr, .inl rfl, rfl⟩
  | status => exact .inr ⟨s.arg0, s.arg1, s.ovr, .inl rfl, rfl⟩
  | result => exact .inr ⟨s.arg0, s.arg1, s.ovr, .inl rfl, rfl⟩
  | errval => exact .inr ⟨s.arg0, s.arg1, s.ovr, .inl rfl, rfl⟩
  | draws => exact .inr ⟨s.arg0, s.arg1, s.ovr, .inl rfl, rfl⟩

/-- A pending write is one of a running FILL's bytes. -/
theorem mem_pendingWrites {s : State} {w : ByteWrite} (h : w ∈ pendingWrites s) :
    s.busy = true ∧ s.seeded = true ∧ decode s.lcmd = .legal (.fill true) ∧
      ∃ i, i < (low32 s.la1).toNat ∧ s.fillAddr i = w.1 ∧ s.fillByteAt i = w.2 := by
  unfold pendingWrites at h
  split at h
  · rename_i hc
    simp only [Bool.and_eq_true, decide_eq_true_eq] at hc
    obtain ⟨⟨hb, hs⟩, hd⟩ := hc
    refine ⟨hb, hs, hd, ?_⟩
    have hw := (List.takeWhile_prefix _).subset (List.mem_of_mem_filter h)
    have he : (fillRun (fillBase s) (fillLength s) (startCommand s)).1 =
        (List.range (low32 s.la1).toNat).map fun i => (s.fillAddr i, s.fillByteAt i) := fillRun_startCommand_writes s
    rw [he] at hw
    obtain ⟨i, hi, rfl⟩ := List.mem_map.1 hw
    exact ⟨i, List.mem_range.1 hi, rfl, rfl⟩
  · cases h

theorem pendingByte_eq_some {s : State} {a : Word64} {v : Byte} (h : pendingByte s a = some v) :
    s.busy = true ∧ s.seeded = true ∧ decode s.lcmd = .legal (.fill true) ∧
      ∃ i, i < (low32 s.la1).toNat ∧ s.fillAddr i = a ∧ s.fillByteAt i = v :=
  mem_pendingWrites (w := (a, v)) (by
    unfold pendingByte at h
    obtain ⟨l₁, l₂, hl, -⟩ := List.lookup_eq_some_iff.1 h
    rw [hl]
    simp)

theorem pendingWrites_idle {s : State} (h : s.busy = false) : pendingWrites s = [] := by simp [pendingWrites, h]

theorem pendingByte_idle {s : State} (a : Word64) (h : s.busy = false) : pendingByte s a = none := by
  simp [pendingByte, pendingWrites_idle h]

/-- The writes that had landed are among those there were. -/
theorem landedWrites_subset (choice : Nat → Bool) (k : Nat) (ws : List ByteWrite) :
    landedWrites choice k ws ⊆ ws := by
  induction ws generalizing k with
  | nil => exact List.Subset.refl _
  | cons w ws ih =>
    unfold landedWrites
    split
    · exact List.cons_subset_cons w (ih (k + 1))
    · exact List.subset_cons_of_subset w (ih (k + 1))

/-- What another agent's write of a byte changes: that byte, and what the model keeps to resolve the race. -/
theorem bufferWrite_cases (a : Word64) (v : Byte) (s : State) :
    ∃ o f, bufferWrite a v s = { s with mem := s.mem.write a.toNat v, overtaken := o, freeIdx := f } ∧
      (s.busy = false → o = s.overtaken) := by
  cases h : pendingByte s a with
  | none => exact ⟨s.overtaken, s.freeIdx, by simp [bufferWrite, h], fun _ => rfl⟩
  | some w =>
    refine ⟨_, _, by simp only [bufferWrite, h]; rfl, fun hb => ?_⟩
    rw [pendingByte_idle a hb] at h
    cases h

/-- What another agent's read of a byte changes: the byte it found, and the count of free values. -/
theorem bufferRead_cases (a : Word64) (s : State) :
    ∃ v f, bufferRead a s = { s with bufData := some v, freeIdx := f } ∧
      (v = bufferByte s a ∨ pendingByte s a = some v) := by
  cases h : pendingByte s a with
  | none => exact ⟨bufferByte s a, s.freeIdx, by simp [bufferRead, h], .inl rfl⟩
  | some w =>
    refine ⟨_, _, by simp only [bufferRead, h]; rfl, ?_⟩
    cases Config.freeRace s.freeIdx
    · exact .inl rfl
    · exact .inr rfl

/-- The block's turn, by BUSY. -/
theorem blockTurn_cases (s : State) :
    (s.busy = false ∧ blockTurn s = .next s) ∨ (s.busy = true ∧ blockTurn s = runCommand s) := by
  rcases Bool.eq_false_or_eq_true s.busy with hb | hb
  · exact .inr ⟨hb, blockTurn_busy hb⟩
  · exact .inl ⟨hb, blockTurn_idle hb⟩

/-- One move of the poll loop, by BUSY. -/
theorem pollStatus_cases (s : State) :
    (s.busy = false ∧ pollStatus s = .next (portRead .status s)) ∨
      (s.busy = true ∧ pollStatus s = runCommand { portRead .status s with events := .wait :: s.events }) := by
  rcases Bool.eq_false_or_eq_true s.busy with hb | hb
  · refine .inr ⟨hb, ?_⟩
    unfold pollStatus
    rw [if_pos hb]
    exact blockTurn_busy hb
  · refine .inl ⟨hb, ?_⟩
    unfold pollStatus
    exact if_neg (by rw [hb]; decide)

/-- Everything a step that goes on can do: reset, the block's turn, an issue, or a move that touches no register of the block but
ARG0, ARG1 and OVR. -/
theorem step_next_cases {s t : State} (h : step s = .next t) :
    (∃ rest, s.events = .reset :: rest ∧ t = resetBlock { s with events := rest }) ∨
      (s.busy = true ∧ BlockMoves s ∧ ∃ ev pd, runCommand { s with events := ev, portData := pd } = .next t) ∨
      (s.busy = false ∧ ∃ w ev, t = issue w { s with events := ev }) ∨
      ∃ x y o ti pd bd m ov f ev, (o = s.ovr ∨ (s.busy = true ∧ o = true)) ∧
        (m = s.mem ∨ ∃ (a : Word64) (v : Byte), m = s.mem.write a.toNat v) ∧ (s.busy = false → ov = s.overtaken) ∧
        t = { s with
          arg0 := x, arg1 := y, ovr := o, time := ti, portData := pd, bufData := bd, mem := m, overtaken := ov
          freeIdx := f, events := ev } := by
  have still : ∀ {u : State} {ev : List Event} {pd : Option Word64}, u = { s with events := ev, portData := pd } →
      ∃ x y o ti pd bd m ov f ev, (o = s.ovr ∨ (s.busy = true ∧ o = true)) ∧
        (m = s.mem ∨ ∃ (a : Word64) (v : Byte), m = s.mem.write a.toNat v) ∧ (s.busy = false → ov = s.overtaken) ∧
        u = { s with
          arg0 := x, arg1 := y, ovr := o, time := ti, portData := pd, bufData := bd, mem := m, overtaken := ov
          freeIdx := f, events := ev } := by
    rintro u ev pd rfl
    exact ⟨s.arg0, s.arg1, s.ovr, s.time, pd, s.bufData, s.mem, s.overtaken, s.freeIdx, ev, .inl rfl, .inl rfl, fun _ => rfl, rfl⟩
  cases he : s.events with
  | nil =>
    rw [step_nil he] at h
    rcases blockTurn_cases s with ⟨-, ht⟩ | ⟨hb, ht⟩ <;> rw [ht] at h
    · cases h
      exact .inr (.inr (.inr (still (ev := s.events) (pd := s.portData) rfl)))
    · exact .inr (.inl ⟨hb, .inl he, s.events, s.portData, h⟩)
  | cons e rest =>
    rw [step_cons he] at h
    cases e with
    | reset => cases h; exact .inl ⟨rest, rfl, rfl⟩
    | driveTime v =>
      cases h
      exact .inr (.inr (.inr ⟨s.arg0, s.arg1, s.ovr, v, s.portData, s.bufData, s.mem, s.overtaken, s.freeIdx, rest,
        .inl rfl, .inl rfl, fun _ => rfl, rfl⟩))
    | block =>
      rcases blockTurn_cases { s with events := rest } with ⟨-, ht⟩ | ⟨hb, ht⟩ <;> rw [takeEvent, ht] at h
      · cases h
        exact .inr (.inr (.inr (still (ev := rest) (pd := s.portData) rfl)))
      · exact .inr (.inl ⟨hb, .inr (.inl ⟨rest, he⟩), rest, s.portData, h⟩)
    | wait =>
      rcases pollStatus_cases { s with events := rest } with ⟨-, ht⟩ | ⟨hb, ht⟩ <;> rw [takeEvent, ht] at h
      · cases h
        exact .inr (.inr (.inr (still rfl)))
      · exact .inr (.inl ⟨hb, .inr (.inr ⟨rest, he⟩), _, _, h⟩)
    | bufRead a =>
      obtain ⟨v, f, hr, -⟩ := bufferRead_cases a { s with events := rest }
      rw [takeEvent, hr] at h
      cases h
      exact .inr (.inr (.inr ⟨s.arg0, s.arg1, s.ovr, s.time, s.portData, some v, s.mem, s.overtaken, f, rest,
        .inl rfl, .inl rfl, fun _ => rfl, rfl⟩))
    | bufWrite a v =>
      obtain ⟨o, f, hr, ho⟩ := bufferWrite_cases a v { s with events := rest }
      rw [takeEvent, hr] at h
      cases h
      exact .inr (.inr (.inr ⟨s.arg0, s.arg1, s.ovr, s.time, s.portData, s.bufData, _, o, f, rest,
        .inl rfl, .inr ⟨a, v, rfl⟩, ho, rfl⟩))
    | access a =>
      cases a with
      | read addr width =>
        simp only [takeEvent, portAccess] at h
        split at h
        · cases h; exact .inr (.inr (.inr (still rfl)))
        · cases h
      | write addr width data =>
        simp only [takeEvent, portAccess] at h
        split at h
        · rename_i r _
          rcases portWrite_cases r data { s with events := rest } with ⟨hb, -, hw⟩ | ⟨x, y, o, ho, hw⟩
          · rw [hw] at h
            cases h
            exact .inr (.inr (.inl ⟨hb, _, rest, rfl⟩))
          · rw [hw] at h
            cases h
            exact .inr (.inr (.inr ⟨x, y, o, s.time, s.portData, s.bufData, s.mem, s.overtaken, s.freeIdx, rest,
              ho, .inl rfl, fun _ => rfl, rfl⟩))
        · cases h

/-- A step ends in no next state only on the block's turn or on a port access. -/
theorem step_stop_cases {s : State} {r : Result} (h : step s = r) (hr : ∀ t, r ≠ .next t) :
    (s.busy = true ∧ BlockMoves s ∧ ∃ ev pd, runCommand { s with events := ev, portData := pd } = r) ∨
      ∃ a rest, s.events = .access a :: rest ∧ portAccess a { s with events := rest } = r := by
  cases he : s.events with
  | nil =>
    rw [step_nil he] at h
    rcases blockTurn_cases s with ⟨-, ht⟩ | ⟨hb, ht⟩ <;> rw [ht] at h
    · exact absurd h.symm (hr _)
    · exact .inl ⟨hb, .inl he, s.events, s.portData, h⟩
  | cons e rest =>
    rw [step_cons he] at h
    cases e with
    | reset => exact absurd h.symm (hr _)
    | driveTime v => exact absurd h.symm (hr _)
    | bufRead a => exact absurd h.symm (hr _)
    | bufWrite a v => exact absurd h.symm (hr _)
    | access a => exact .inr ⟨a, rest, rfl, h⟩
    | block =>
      rcases blockTurn_cases { s with events := rest } with ⟨-, ht⟩ | ⟨hb, ht⟩ <;> rw [takeEvent, ht] at h
      · exact absurd h.symm (hr _)
      · exact .inl ⟨hb, .inr (.inl ⟨rest, he⟩), rest, s.portData, h⟩
    | wait =>
      rcases pollStatus_cases { s with events := rest } with ⟨-, ht⟩ | ⟨hb, ht⟩ <;> rw [takeEvent, ht] at h
      · exact absurd h.symm (hr _)
      · exact .inl ⟨hb, .inr (.inr ⟨rest, he⟩), _, _, h⟩

end Sys2Proof.Machine
end

