-- ==== Sys2Proof/Tests/Slice0.lean ====
section
/-! SUPPORT. Tests/Slice0.lean: small tests against the worked examples of the spec (each names its vector of
spec/95_test_vectors.md), and for each statement with hypotheses a named state that meets them. -/

namespace Sys2Proof.Tests

open Sys2Proof.Machine

/-! ### Small states -/

/-- Parameters at R6's defaults, with numbers of the test's own for the OPEN ones. -/
def cfg0 : Config where
  thresholdForm := .doc
  fillEmptyTailDraw := false
  defaultStream := 0x1234
  portBase := 0x4000
  buffer := [{ base := 0, size := 2 ^ 64 }]

/-- An engine that no construction has loaded. -/
def fresh : State := { State.reset with cfg := cfg0 }

/-- S42 of spec/95: the engine after `seed 42, 54`. -/
def s42 : State := { fresh with stateReg := 0x2A, inc := 0x37, seeded := true }

/-- S42 after one NEXTU32 (V-R1). -/
def s42b : State := { s42 with stateReg := 0x7D720F6E9086DD99, draws := 1 }

/-- A state with operands latched. -/
def withArgs (a0 a1 : Word64) (s : State) : State := { s with la0 := a0, la1 := a1 }

/-- A state in which the block runs a command word, with the next moves of the agents. -/
def running (w : Word32) (ev : List Event) (s : State) : State := { s with busy := true, lcmd := w, events := ev }

/-- A state whose INC is even: no run reaches it. Every draw is 0. -/
def stuckEngine : State := { fresh with seeded := true, la0 := 2 }

/-- The result is a next state with the property. -/
def nextIs (p : State → Bool) : Result → Bool
  | .next t => p t
  | .fault _ => false
  | .refused _ => false

theorem exists_of_nextIs {p : State → Bool} {r : Result} (h : nextIs p r = true) : ∃ t, r = .next t ∧ p t = true := by
  cases r with
  | next t => exact ⟨t, rfl, h⟩
  | fault f => cases h
  | refused f => cases h

theorem not_resetNext {s : State} (h : s.events.head? ≠ some .reset) : ¬ResetNext s := by
  rintro ⟨rest, he⟩
  rw [he] at h
  exact h rfl

/-! ### Well-formedness: one ill-formed term for each check (R74) -/

theorem test_wf_res : CmdFields.wellFormed { opcode := 0x10, p := false, res := 1 } = false := by decide
theorem test_wf_opcode : CmdFields.wellFormed { opcode := 0x17, p := false, res := 0 } = false := by decide
theorem test_wf_bufferBit : CmdFields.wellFormed { opcode := 0x13, p := true, res := 0 } = false := by decide
theorem test_wf_fill : CmdFields.wellFormed { opcode := 0x15, p := true, res := 0 } = true := by decide

/-! ### Decoding: each constructor's word, bit by bit from R70 and R71 (RES 23 bits, P, OPCODE) -/

theorem test_decode_seed : decode 0b00000000000000000000000_0_00000001 = .legal .seed := by decide
theorem test_decode_seedd : decode 0b00000000000000000000000_0_00000010 = .legal .seedd := by decide
theorem test_decode_seedt : decode 0b00000000000000000000000_0_00000011 = .legal .seedt := by decide
theorem test_decode_clrstat : decode 0b00000000000000000000000_0_00001000 = .legal .clrstat := by decide
theorem test_decode_nextu32 : decode 0b00000000000000000000000_0_00010000 = .legal .nextu32 := by decide
theorem test_decode_bounded : decode 0b00000000000000000000000_0_00010001 = .legal .bounded := by decide
theorem test_decode_next : decode 0b00000000000000000000000_0_00010010 = .legal .next := by decide
theorem test_decode_below : decode 0b00000000000000000000000_0_00010011 = .legal .below := by decide
theorem test_decode_range : decode 0b00000000000000000000000_0_00010100 = .legal .range := by decide
theorem test_decode_fill_absent : decode 0b00000000000000000000000_0_00010101 = .legal (.fill false) := by decide
theorem test_decode_fill_present : decode 0b00000000000000000000000_1_00010101 = .legal (.fill true) := by decide
theorem test_decode_sample : decode 0b00000000000000000000000_0_00010110 = .legal .sample := by decide

/-- V-E10 and V-E7: illegal words, by the clause that refuses each. -/
theorem test_decode_illegal :
    decode 0x00000000 = .illegal .unassignedOpcode ∧ decode 0x00000004 = .illegal .unassignedOpcode ∧
      decode 0x00000200 = .illegal .reservedBits ∧ decode 0x00000101 = .illegal .bufferBitOutsideFill ∧
      decode 0x80000010 = .illegal .reservedBits ∧ decode 0x00000113 = .illegal .bufferBitOutsideFill := by decide

theorem test_encode : encode .range = 0x00000014 ∧ encode (.fill true) = 0x00000115 ∧ encode .clrstat = 0x00000008 := by decide

theorem test_decodeTableWord : decodeTableWord 32 0x115 = some (.fill true) ∧ decodeTableWord 32 0x215 = none := by decide

/-! ### Reset and memory -/

theorem test_reset_memory : State.reset.mem.wf = true ∧ statusWord State.reset = 0 := by decide

/-- Writes in either order give one list. -/
theorem test_memory_canonical :
    (Memory.write (Memory.write [] 7 1) 3 2) = [(3, 2), (7, 1)] ∧ (Memory.write (Memory.write [] 3 2) 7 1) = [(3, 2), (7, 1)] := by
  decide

/-! ### The datapath -/

/-- V-R4: wraparound, a rotation by 31. -/
theorem test_draw_wraps :
    (draw { fresh with stateReg := 0xFFFFFFFFFFFFFFFF, inc := 1 }).1 = 0xFFF00001 ∧
      (draw { fresh with stateReg := 0xFFFFFFFFFFFFFFFF, inc := 1 }).2.stateReg = 0xA7AE0BD2B36A80D4 := by decide

/-- V-R6: a rotation by 16. -/
theorem test_draw_rotates : (draw { fresh with stateReg := 0x8000000000000000, inc := 1 }).1 = 0x00000004 := by decide

/-- The threshold table of spec/95 section 2.3. -/
theorem test_threshold :
    threshold .doc 6 = 3 ∧ threshold .ref 6 = 4 ∧ threshold .doc 0x80000000 = 0x7FFFFFFF ∧
      threshold .ref 0x80000001 = 0x7FFFFFFF ∧ threshold .doc 0xFFFFFFFF = 0 ∧ threshold .ref 0xFFFFFFFF = 1 := by decide

/-- V-M2, V-M5, V-M6 (a tie), V-M11 (rounded up). -/
theorem test_sampleBits :
    sampleBits 1 = 0x3DF0000000100000 ∧ sampleBits 0x0C855C84 = 0x3FA90AB908190AB9 ∧
      sampleBits 0x00FC4F14 = 0x3F6F89E2801F89E2 ∧ sampleBits 0xFFFFFFFE = 0x3FEFFFFFFFE00000 := by decide

/-! ### One step of each command -/

/-- V-C1, V-C2: streams 54 and 55 give the same INC. -/
theorem test_seed :
    nextIs (fun t => t.stateReg == 0x2A && t.inc == 0x37 && statusWord t == 2) (step (running 0x01 [] (withArgs 42 55 fresh))) = true :=
  by decide

/-- V-C4. -/
theorem test_seedd :
    nextIs (fun t => t.stateReg == 0x2A && t.inc == 0x1235) (step (running 0x02 [] (withArgs 42 7 fresh))) = true := by decide

/-- V-C5: the seed is the latched TIME, not ARG0. -/
theorem test_seedt :
    nextIs (fun t => t.stateReg == 99 && t.inc == 0x1235) (step (running 0x03 [] { withArgs 42 7 fresh with lt := 99 })) = true := by
  decide

/-- V-C7: STATUS 0x00000006 becomes 0x00000002. -/
theorem test_clrstat :
    nextIs (fun t => statusWord t == 2 && t.stateReg == 0x2A) (step (running 0x08 [] { s42 with ovr := true })) = true := by decide

/-- V-R2. -/
theorem test_nextu32 :
    nextIs (fun t => t.result == 0x0C855C84 && t.stateReg == 0x194A804FB5B0DB1C && t.draws == 1) (step (running 0x10 [] s42b)) =
      true := by decide

/-- V-E1. -/
theorem test_nextu32_unseeded : nextIs (fun t => statusWord t == 0x40) (step (running 0x10 [] fresh)) = true := by decide

/-- R146's example: the first draw is rejected. -/
theorem test_bounded :
    nextIs (fun t => t.result == 0 && t.draws == 2 && t.stateReg == 0x194A804FB5B0DB1C)
      (step (running 0x11 [] (withArgs 6 0 s42))) = true := by decide

/-- R146: ARG0[63:32] is ignored, and max = 0 makes no draw. -/
theorem test_bounded_zero :
    nextIs (fun t => t.result == 0 && t.draws == 0 && t.stateReg == 0x2A)
      (step (running 0x11 [] (withArgs 0x0000000100000000 0 s42))) = true := by decide

/-- R150's example: the second draw shifted. -/
theorem test_next : nextIs (fun t => t.result == 0x0642AE42 && t.draws == 1) (step (running 0x12 [] s42b)) = true := by decide

/-- V-E3. -/
theorem test_below_negative :
    nextIs (fun t => statusWord t == 0x112 && t.errval == 0xFFFFFFFF80000000 && t.stateReg == 0x7D720F6E9086DD99)
      (step (running 0x13 [] (withArgs 0x80000000 0 s42b))) = true := by decide

/-- R152's example: `below 6` gives 0 after 2 draws. -/
theorem test_below : nextIs (fun t => t.result == 0 && t.draws == 2) (step (running 0x13 [] (withArgs 6 0 s42))) = true := by decide

/-- V-G1: -1, sign-extended. -/
theorem test_range :
    nextIs (fun t => t.result == 0xFFFFFFFFFFFFFFFF && t.draws == 2)
      (step (running 0x14 [] (withArgs 0xFFFFFFFFFFFFFFFB 5 s42))) = true := by decide

/-- V-E5: a signed comparison. -/
theorem test_range_order :
    nextIs (fun t => statusWord t == 0x212 && t.errval == 0xFFFFFFFFFFFFFFFF)
      (step (running 0x14 [] (withArgs 0xFFFFFFFFFFFFFFFF 0xFFFFFFFFFFFFFFFE s42b))) = true := by decide

/-- V-F13: five bytes across the top of the address space, least significant first. -/
theorem test_fill_wraps :
    nextIs (fun t => t.mem == [(0, 0), (1, 0), (2, 0x84), (0xFFFFFFFFFFFFFFFE, 0), (0xFFFFFFFFFFFFFFFF, 0)] && t.draws == 2)
      (step (running 0x115 [] (withArgs 0xFFFFFFFFFFFFFFFE 5 s42))) = true := by decide

/-- V-E6: an absent buffer. -/
theorem test_fill_absent :
    nextIs (fun t => statusWord t == 0x322 && t.mem == []) (step (running 0x15 [] (withArgs 0 8 s42b))) = true := by decide

/-- V-M14: U32_MAX is rejected. -/
theorem test_sample :
    nextIs (fun t => t.result == 0x3FBA69D6B31A69D7 && t.draws == 2)
      (step (running 0x16 [] { s42 with stateReg := 0x07FFFE00078001E0, inc := 1 })) = true := by decide

/-- V-E7: an illegal word is reported before the argument is looked at. -/
theorem test_illegal :
    nextIs (fun t => statusWord t == 0x32 && t.draws == 0) (step (running 0x113 [] (withArgs 0xFFFFFFFFFFFFFFFF 0 s42b))) = true := by
  decide

/-! ### The port and the other agents -/

/-- P6, the dropped outcome: a second CMD write while BUSY sets OVR. -/
theorem test_overrun :
    nextIs (fun t => t.ovr && t.lcmd == 0x10) (step (running 0x10 [.access (.write 0x4000 32 0x01)] s42)) = true := by decide

/-- R56: 0x30 is not part of the port. -/
theorem test_port_refused :
    step { s42 with events := [.access (.read 0x4030 64)] } = .refused (.portAccess 0x4030 64) := rfl

/-- R231: a reset during a FILL empties the block. -/
theorem test_reset : nextIs (fun t => !t.busy && !t.seeded && t.result == 0) (step (running 0x10 [.reset] s42)) = true := by decide

/-! ### Witnesses: for each statement with hypotheses, states and operands that meet them, each clause at the ends of its range -/

theorem witness_DecodeOfEncode : (Instr.fill true).wellFormed = true ∧ Instr.sample.wellFormed = true := by decide

theorem witness_IllegalWordsByClause :
    (∃ why, decode (running 0x00000200 [] s42).lcmd = .illegal why) ∧
      (∃ why, decode (running 0x00000017 [] s42).lcmd = .illegal why) ∧
      ∃ why, decode (running 0x00000101 [] s42).lcmd = .illegal why :=
  ⟨⟨.reservedBits, by decide⟩, ⟨.unassignedOpcode, by decide⟩, ⟨.bufferBitOutsideFill, by decide⟩⟩

/-- A host about to do a pseudo-instruction. -/
def assembled (p : Pseudo) : State := { s42 with events := p.expansion.map (HostOp.event s42.cfg.portBase) }

/-- Both ends of the literals' range, as writes and in the expansions of `below` and `range`. -/
theorem witness_SignedLiteralReachesTheCommand :
    isI32 (-2 ^ 31) = true ∧ isI32 (2 ^ 31 - 1) = true ∧
      assemble (.below (-2 ^ 31)) = some (Pseudo.below (-2 ^ 31)).expansion ∧
      assemble (.range (-2 ^ 31) (2 ^ 31 - 1)) = some (Pseudo.range (-2 ^ 31) (2 ^ 31 - 1)).expansion ∧
      (assembled (.range (-2 ^ 31) (2 ^ 31 - 1))).busy = false ∧
      (assembled (.range (-2 ^ 31) (2 ^ 31 - 1))).events =
        (Pseudo.range (-2 ^ 31) (2 ^ 31 - 1)).expansion.map
          (HostOp.event (assembled (.range (-2 ^ 31) (2 ^ 31 - 1))).cfg.portBase) ++ [] := by decide

/-- `below -1` (R77's two's complement): the step of its first write puts 64 ones into ARG0. -/
theorem test_wr_negative : nextIs (fun t => t.arg0 == 0xFFFFFFFFFFFFFFFF && t.arg1 == 0) (step (assembled (.below (-1)))) = true := by
  decide

theorem witness_ConstructionReplacesTheEngine :
    Instr.seed.isConstruction = true ∧ Instr.seedd.isConstruction = true ∧ Instr.seedt.isConstruction = true := by decide

theorem witness_XorshiftBitForm : (0 : Nat) ≤ 31 ∧ (31 : Nat) ≤ 31 := by decide

theorem witness_RotationFormsAgree : (0 : Nat) ≤ 31 ∧ (31 : Nat) ≤ 31 := by decide

/-- Seeds 0 and 42 agree in bits 63:27 (R126's example). -/
theorem witness_OutputReadsBits63To27 : (0 : Word64).extractLsb' 27 37 = (42 : Word64).extractLsb' 27 37 := by decide

/-- The hypothesis of the statements about a constructed engine: SEEDED = 1 and INC odd. -/
theorem witness_constructed : s42.seeded = true ∧ s42.inc.getLsbD 0 = true := by decide

/-- The hypothesis of `UnseededEnds`. -/
theorem witness_unseeded : fresh.seeded = false := rfl

theorem witness_FullPeriodAndBalance : s42.inc.getLsbD 0 = true := by decide

theorem witness_Nextu32Draws : s42.seeded = true ∧ fresh.seeded = false := by decide

/-- Streams 54 and 55 differ only in bit 0; S42 and a copy of it with another RESULT are the same engine; a sequence of two
commands ends in a next state. -/
theorem witness_EqualEnginesStayEqual :
    fresh.cfg = s42.cfg ∧ (∀ k, 1 ≤ k → (54 : Word64).getLsbD k = (55 : Word64).getLsbD k) ∧
      SameEngine s42 { s42 with result := 5, arg0 := 9 } ∧
      (∃ t, execAll [(.nextu32, 0, 0, 0), (.bounded, 6, 0, 0)] s42 = .next t ∧ (t.result == 0) = true) ∧
      (s42.overtaken = [] ∧ ({ s42 with result := 5, arg0 := 9 } : State).overtaken = []) ∧
      ∃ t, execAll [(.nextu32, 0, 0, 0), (.fill true, 0x1000, 2, 0)] s42 = .next t ∧ (t.mem.read 0x1000 == some 0x84) = true := by
  refine ⟨rfl, fun k hk => ?_, ⟨rfl, rfl, rfl, rfl⟩, exists_of_nextIs (p := fun t => t.result == 0) (by decide), ⟨rfl, rfl⟩,
    exists_of_nextIs (p := fun t => t.mem.read 0x1000 == some 0x84) (by decide)⟩
  by_cases h : k < 64
  · exact (show ∀ k : Fin 64, 1 ≤ k.val → (54 : Word64).getLsbD k.val = (55 : Word64).getLsbD k.val by decide) ⟨k, h⟩ hk
  · rw [BitVec.getLsbD_of_ge _ _ (by omega), BitVec.getLsbD_of_ge _ _ (by omega)]

/-- The fault clause of `EqualEnginesStayEqual` has a state too, with INC even: every draw of it is 0, and a bounded draw below 2
rejects 0. -/
theorem witness_fault : exec .bounded stuckEngine = .fault .retryExhausted := by
  have hz : ∀ k, stuckEngine.drawAt k = 0 := by
    intro k
    have : stuckEngine.lcgAfter k = 0 := by
      induction k with
      | zero => rfl
      | succ k ih => exact (Function.iterate_succ_apply' (advance stuckEngine.inc) k _).trans ((congrArg _ ih).trans (by decide))
    unfold State.drawAt
    rw [this]
    decide
  rcases finishValue_boundedDraw (operand0 (startCommand stuckEngine)) stuckEngine zext32 with ⟨v, k, hg, -⟩ | ⟨-, h⟩
  · rcases hg with ⟨h0, -⟩ | ⟨-, j, ⟨ha, -⟩, -⟩
    · exact absurd h0 (by decide)
    · rw [hz j] at ha
      exact absurd ha (by decide)
  · have hs : stuckEngine.seeded = true := rfl
    have he : execBounded stuckEngine = _ := requireSeeded_of_seeded _ hs
    exact he.trans h

theorem witness_ThresholdForms : (1 : Word32) ≠ 0 ∧ (0xFFFFFFFF : Word32) ≠ 0 := by decide

theorem witness_BoundedBias : (0 : Word32) < 1 ∧ ((1 : Word32) < 2 ∧ (2 : Word32) ≤ 2) ∧ (0xFFFFFFFE : Word32) < 0xFFFFFFFF := by
  decide

theorem witness_ThresholdCorners :
    (0 : Nat) ≤ 31 ∧ (31 : Nat) ≤ 31 ∧ (0x80000001 : Word32) ≤ 0x80000001 ∧ (0x80000001 : Word32) ≤ 0xFFFFFFFF := by decide

theorem witness_BoundedRetryBound : s42.inc.getLsbD 0 = true ∧ (1 : Word32) ≠ 0 ∧ (0xFFFFFFFF : Word32) ≠ 0 := by decide

theorem witness_BoundedIsBelowMax :
    (∃ v t, boundedDraw 0 s42 = some (v, t)) ∧ ∃ v t, boundedDraw 6 s42 = some (v, t) := by
  refine ⟨⟨0, s42, rfl⟩, ?_⟩
  obtain ⟨d, hd⟩ := boundedDraw_answers (max := 6) (s := s42) (by decide)
  exact ⟨d.1, d.2, hd⟩

theorem witness_BoundedCompletes : fresh.seeded = false ∧ s42.seeded = true ∧ s42.inc.getLsbD 0 = true := by decide

theorem witness_NextDraws : fresh.seeded = false ∧ s42.seeded = true := by decide

/-- max = -1, -2^31; max = 0, 2^31 - 1. -/
theorem witness_BelowCompletes :
    s42.seeded = true ∧ s42.inc.getLsbD 0 = true ∧
      sint32 (low32 (withArgs 0xFFFFFFFFFFFFFFFF 0 s42).la0) < 0 ∧ sint32 (low32 (withArgs 0x80000000 0 s42).la0) < 0 ∧
      0 ≤ sint32 (low32 (withArgs 0 0 s42).la0) ∧ 0 ≤ sint32 (low32 (withArgs 0x7FFFFFFF 0 s42).la0) := by decide

theorem witness_BelowInRange :
    (∃ t, exec .below (withArgs 6 0 s42) = .next t ∧ (t.err == .noError) = true) ∧
      0 < sint32 (low32 (withArgs 6 0 s42).la0) ∧
      (∃ t, exec .below (withArgs 0 0 s42) = .next t ∧ (t.err == .noError) = true) ∧
      sint32 (low32 (withArgs 0 0 s42).la0) = 0 :=
  ⟨exists_of_nextIs (p := fun t => t.err == .noError) (by decide), by decide,
    exists_of_nextIs (p := fun t => t.err == .noError) (by decide), by decide⟩

/-- min above, equal to and below max; the widest range. -/
theorem witness_RangeCompletes :
    s42.seeded = true ∧ s42.inc.getLsbD 0 = true ∧
      sint32 (low32 (withArgs 6 5 s42).la1) < sint32 (low32 (withArgs 6 5 s42).la0) ∧
      sint32 (low32 (withArgs 5 5 s42).la0) = sint32 (low32 (withArgs 5 5 s42).la1) ∧
      sint32 (low32 (withArgs 4 5 s42).la0) < sint32 (low32 (withArgs 4 5 s42).la1) ∧
      sint32 (low32 (withArgs 0x80000000 0x7FFFFFFF s42).la0) < sint32 (low32 (withArgs 0x80000000 0x7FFFFFFF s42).la1) := by
  decide

theorem witness_RangeIsExact :
    sint32 (low32 (withArgs 0x80000000 0x7FFFFFFF s42).la0) < sint32 (low32 (withArgs 0x80000000 0x7FFFFFFF s42).la1) ∧
      ((0xFFFFFFFE : Word32).toNat : Int) <
        sint32 (low32 (withArgs 0x80000000 0x7FFFFFFF s42).la1) - sint32 (low32 (withArgs 0x80000000 0x7FFFFFFF s42).la0) ∧
      ∃ t, exec .range (withArgs 0x80000000 0x7FFFFFFF s42) = .next t ∧ (t.err == .noError) = true :=
  ⟨by decide, by decide, exists_of_nextIs (p := fun t => t.err == .noError) (by decide)⟩

/-- Lengths 0 and 5, the latter across the top of the address space; the byte clause at index 4 and the frame clause at an address
no byte of the FILL has. -/
theorem witness_FillCompletes :
    fresh.seeded = false ∧ s42.seeded = true ∧
      (∀ i, i < (low32 (withArgs 0x1000 0 s42).la1).toNat →
        admits (withArgs 0x1000 0 s42).cfg ((withArgs 0x1000 0 s42).fillAddr i) = true) ∧
      (∀ i, i < (low32 (withArgs 0xFFFFFFFFFFFFFFFE 5 s42).la1).toNat →
        admits (withArgs 0xFFFFFFFFFFFFFFFE 5 s42).cfg ((withArgs 0xFFFFFFFFFFFFFFFE 5 s42).fillAddr i) = true) ∧
      4 < (low32 (withArgs 0xFFFFFFFFFFFFFFFE 5 s42).la1).toNat ∧ (withArgs 0xFFFFFFFFFFFFFFFE 5 s42).fillAddr 4 ∉ s42.overtaken ∧
      ∀ i, i < (low32 (withArgs 0xFFFFFFFFFFFFFFFE 5 s42).la1).toNat →
        ((withArgs 0xFFFFFFFFFFFFFFFE 5 s42).fillAddr i).toNat ≠ 3 := by decide

/-- A FILL of five bytes whose byte 1 another agent wrote after the FILL did. -/
def overtakenFill : State := { withArgs 0x1000 5 s42b with overtaken := [0x1001], mem := [(0x1001, 7)] }

/-- The same clauses with an overtaken byte: byte 0 lands (V-R2's draw 0x0C855C84), byte 1 stays the other agent's. -/
theorem witness_FillCompletes_overtaken :
    overtakenFill.seeded = true ∧
      (∀ i, i < (low32 overtakenFill.la1).toNat → admits overtakenFill.cfg (overtakenFill.fillAddr i) = true) ∧
      overtakenFill.fillAddr 0 ∉ overtakenFill.overtaken ∧ overtakenFill.fillAddr 1 ∈ overtakenFill.overtaken ∧
      nextIs (fun t => t.mem.read 0x1000 == some 0x84 && t.mem.read 0x1001 == some 7) (exec (.fill true) overtakenFill) = true := by
  decide

/-- No address is admitted. -/
def noBuffer : State := running 0x115 [] { withArgs 0x1000 1 s42 with cfg := { cfg0 with buffer := [] } }

theorem witness_RefusedFillIsStuck :
    noBuffer.busy = true ∧ noBuffer.seeded = true ∧ decode noBuffer.lcmd = .legal (.fill true) ∧
      (∃ i, i < (low32 noBuffer.la1).toNat ∧ admits noBuffer.cfg (noBuffer.fillAddr i) = false) ∧ noBuffer.events = [] :=
  ⟨rfl, rfl, by decide, ⟨0, by decide, by decide⟩, rfl⟩

theorem witness_SampleCompletes : fresh.seeded = false ∧ s42.seeded = true ∧ s42.inc.getLsbD 0 = true := by decide

theorem witness_SampleIsBelowOne : (0 : Word32) ≠ 0xFFFFFFFF ∧ (0xFFFFFFFE : Word32) ≠ 0xFFFFFFFF := by decide

theorem witness_SampleRetryBound : s42.inc.getLsbD 0 = true := by decide

/-- A construction changes INC and SEEDED, a draw STATE. -/
theorem witness_OnlyCommandsChangeTheEngine :
    (∃ t, step (running 0x01 [] (withArgs 7 8 fresh)) = .next t ∧ (t.inc != fresh.inc && t.seeded != fresh.seeded) = true) ∧
      ¬ResetNext (running 0x01 [] (withArgs 7 8 fresh)) ∧
      (∃ t, step (running 0x10 [] s42) = .next t ∧ (t.stateReg != s42.stateReg) = true) ∧ ¬ResetNext (running 0x10 [] s42) :=
  ⟨exists_of_nextIs (p := fun t => t.inc != fresh.inc && t.seeded != fresh.seeded) (by decide), not_resetNext (by decide),
    exists_of_nextIs (p := fun t => t.stateReg != s42.stateReg) (by decide), not_resetNext (by decide)⟩

theorem witness_UnseededEngineIsNeverRead :
    (fresh.seeded = false ∧ step fresh = .next fresh) ∧
      step { fresh with events := [.access (.write 0x4000 64 1)] } = .refused (.portAccess 0x4000 64) :=
  ⟨⟨rfl, rfl⟩, rfl⟩

/-- TIME driven and not driven. -/
theorem witness_CmdWriteIssues :
    (s42.busy = false ∧ ({ s42 with events := [.access (.write s42.cfg.portBase 32 0x10)] } : State).events =
      [.access (.write s42.cfg.portBase 32 0x10)]) ∧
      ({ s42 with time := some 5 } : State).time = some 5 ∧ s42.time = none := ⟨⟨rfl, rfl⟩, rfl, rfl⟩

theorem witness_OverrunIsSticky :
    (running 0x10 [.access (.write s42.cfg.portBase 32 1)] s42).busy = true ∧
      (∃ t, step (running 0x08 [] { s42 with ovr := true }) = .next t ∧ (!t.ovr) = true) ∧
      ∃ t, step { s42 with ovr := true, events := [.reset] } = .next t ∧ (!t.ovr) = true :=
  ⟨rfl, exists_of_nextIs (p := fun t => !t.ovr) (by decide), exists_of_nextIs (p := fun t => !t.ovr) (by decide)⟩

/-- An issue is a step that completes nothing. -/
theorem witness_ReportsChangeOnlyAtCompletion :
    (∃ t, step { s42 with events := [.access (.write 0x4000 32 0x10)] } = .next t ∧ t.busy = true) ∧
      ¬ResetNext { s42 with events := [.access (.write 0x4000 32 0x10)] } ∧
      ∀ t : State, ¬(({ s42 with events := [.access (.write 0x4000 32 0x10)] } : State).busy = true ∧ t.busy = false) :=
  ⟨exists_of_nextIs (p := State.busy) (by decide), not_resetNext (by decide), fun _ h => absurd h.1 (by decide)⟩

/-- The last register and the first offset past it; the first register with its width and another. -/
theorem witness_PortAcceptsExactlyItsRegisters :
    (∃ t, step { s42 with events := [.access (.read 0x4028 64)] } = .next t ∧ (t.portData == some 0) = true) ∧
      step { s42 with events := [.access (.read 0x4030 64)] } = .refused (.portAccess 0x4030 64) ∧
      (∃ t, step { s42 with events := [.access (.read 0x4000 32)] } = .next t ∧ (t.portData == some 0) = true) ∧
      step { s42 with events := [.access (.write 0x4000 64 1)] } = .refused (.portAccess 0x4000 64) :=
  ⟨exists_of_nextIs (p := fun t => t.portData == some 0) (by decide), rfl,
    exists_of_nextIs (p := fun t => t.portData == some 0) (by decide), rfl⟩

/-- A state whose next event is a read of STATUS. -/
theorem witness_PortReads :
    ({ s42 with events := [.access (.read (s42.cfg.portBase + 0x04) 32)] } : State).events =
        [.access (.read (s42.cfg.portBase + 0x04) 32)] ∧
      ((0x04 : Word64), 32, zext32 (statusWord s42)) ∈ [((0x04 : Word64), 32, zext32 (statusWord s42))] := by
  exact ⟨rfl, List.mem_singleton.2 rfl⟩

theorem witness_PortWrites :
    ({ s42 with events := [.access (.write (s42.cfg.portBase + 0x08) 64 9)] } : State).events =
        [.access (.write (s42.cfg.portBase + 0x08) 64 9)] ∧
      ((0x04 : Word64), 32) ∈ [((0x04 : Word64), 32), (0x18, 64), (0x20, 64), (0x28, 64)] ∧
      ((0x28 : Word64), 64) ∈ [((0x04 : Word64), 32), (0x18, 64), (0x20, 64), (0x28, 64)] := ⟨rfl, by decide, by decide⟩

theorem witness_BufferReadIsOldOrNew : ({ s42 with events := [.bufRead 0x1000] } : State).events = [.bufRead 0x1000] := rfl

theorem witness_OutsideMovesLeaveTheBlockAlone :
    (s42.busy = false ∧ s42.events = []) ∧ ({ s42 with events := [.driveTime (some 3)] } : State).events = [.driveTime (some 3)] ∧
      ({ s42 with events := [.bufWrite 0xFFFFFFFFFFFFFFFF 1] } : State).events = [.bufWrite 0xFFFFFFFFFFFFFFFF 1] :=
  ⟨⟨rfl, rfl⟩, rfl, rfl⟩

/-- One state for each error, and a completion with an error. -/
theorem witness_ErrorPriority :
    (∃ why, decode (running 0x113 [] s42).lcmd = .illegal why) ∧
      (decode (running 0x10 [] fresh).lcmd = .legal .nextu32 ∧ Instr.nextu32.isDrawing = true ∧ fresh.seeded = false) ∧
      (decode (running 0x13 [] s42).lcmd = .legal .below ∧ sint32 (low32 (withArgs 0xFFFFFFFF 0 s42).la0) < 0) ∧
      (decode (running 0x14 [] s42).lcmd = .legal .range ∧
        sint32 (low32 (withArgs 6 5 s42).la1) < sint32 (low32 (withArgs 6 5 s42).la0)) ∧
      (decode (running 0x15 [] s42).lcmd = .legal (.fill false) ∧ s42.seeded = true) ∧
      ∃ t, runCommand (running 0x15 [] s42) = .next t ∧ (!t.busy && t.err != .noError) = true :=
  ⟨⟨.bufferBitOutsideFill, by decide⟩, by decide, by decide, by decide, by decide,
    exists_of_nextIs (p := fun t => !t.busy && t.err != .noError) (by decide)⟩

theorem witness_ErrorsChangeNothing :
    (running 0x113 [] s42).busy = true ∧
      ∃ t, runCommand (running 0x113 [] s42) = .next t ∧ (!t.busy && t.err != .noError) = true :=
  ⟨rfl, exists_of_nextIs (p := fun t => !t.busy && t.err != .noError) (by decide)⟩

/-- The invariant holds while a command runs on a constructed engine. -/
theorem witness_inv : Inv (running 0x10 [] s42) ∧ (running 0x10 [] s42).busy = true :=
  ⟨⟨rfl, fun _ => by decide, ⟨rfl, rfl⟩, fun h => absurd h (by decide), rfl, fun h => absurd h (by decide)⟩, rfl⟩

theorem witness_EveryCommandCompletes : Inv (running 0x10 [] s42) ∧ (running 0x10 [] s42).busy = true := witness_inv

theorem witness_NoStepFaults : Inv (running 0x10 [] s42) := witness_inv.1

theorem witness_StepKeepsTheInvariant :
    Inv (running 0x10 [] s42) ∧ ∃ t, step (running 0x10 [] s42) = .next t ∧ (t.draws == 1) = true :=
  ⟨witness_inv.1, exists_of_nextIs (p := fun t => t.draws == 1) (by decide)⟩

/-- A host about to write CMD and to wait. -/
def aboutToIssue : State := { s42 with events := [.access (.write s42.cfg.portBase 32 0x10), .wait] }

theorem witness_CommandIsOneTransition :
    aboutToIssue.busy = false ∧ aboutToIssue.events = .access (.write aboutToIssue.cfg.portBase 32 0x10) :: .wait :: [] ∧
      decode (low32 0x10) = .legal .nextu32 ∧
      ∃ t, exec .nextu32 (issue (low32 0x10) aboutToIssue) = .next t ∧ (!t.busy) = true :=
  ⟨rfl, rfl, by decide, exists_of_nextIs (p := fun t => !t.busy) (by decide)⟩

theorem witness_ResetValues : (running 0x10 [.reset] s42).events = .reset :: [] := rfl

theorem witness_ResetAbandonsTheCommand :
    (running 0x115 [.reset] (withArgs 0x1000 5 s42)).events = .reset :: [] ∧
      decode (running 0x115 [.reset] (withArgs 0x1000 5 s42)).lcmd = .legal (.fill true) := ⟨rfl, by decide⟩

theorem witness_StepRunsTheDecodedCommand :
    ((running 0x10 [] s42).busy = true ∧ decode (running 0x10 [] s42).lcmd = .legal .nextu32 ∧ (running 0x10 [] s42).events = []) ∧
      (running 0x10 [.block] s42).events = .block :: [] ∧ (running 0x10 [.wait] s42).events = .wait :: [] ∧
      decodeTableWord 32 0x115 = some (.fill true) := by decide

end Sys2Proof.Tests
end

section
/-! PROOFS. The notation of 00_scope.md: the rotation of R11. -/

namespace Sys2Proof.Machine

/-- The source's left amount, with the mask `& 31` read as a remainder. -/
theorem rotr32_leftAmount (r : Nat) : (32 - r) &&& 31 = (32 - r) % 32 :=
  Nat.and_two_pow_sub_one_eq_mod (32 - r) 5

/-- The two left amounts of R11, `(32 - r) & 31` and `(-r) mod 32`, are one number. -/
theorem neg_emod_eq_rotr32_leftAmount {r : Nat} (hr : r ≤ 31) : ((-(r : Int)) % 32).toNat = (32 - r) &&& 31 := by
  rw [rotr32_leftAmount]
  omega

theorem rotr32_zero (x : Word32) : rotr32 x 0 = x := by
  simp [rotr32]

/-- The library's rotation shifts left by `32 - r` without the mask: the amounts differ only at `r = 0`, where both give `x`. -/
theorem rotr32_eq_rotateRight (x : Word32) {r : Nat} (hr : r ≤ 31) : rotr32 x r = x.rotateRight r := by
  obtain rfl | hpos := Nat.eq_zero_or_pos r
  · rw [rotr32_zero, BitVec.rotateRight_def]
    simp [BitVec.shiftLeft_eq_zero]
  · have hleft : (32 - r) &&& 31 = 32 - r := by
      rw [rotr32_leftAmount, Nat.mod_eq_of_lt (by omega)]
    rw [rotr32, hleft, BitVec.rotateRight_def, Nat.mod_eq_of_lt (by omega)]

/-- R11's bitwise reading; the split is whether `j + r` passes bit 31. -/
theorem rotr32_getLsbD (x : Word32) {r j : Nat} (hr : r ≤ 31) (hj : j ≤ 31) :
    (rotr32 x r).getLsbD j = x.getLsbD ((j + r) % 32) := by
  rw [rotr32_eq_rotateRight x hr, BitVec.getLsbD_rotateRight, Nat.mod_eq_of_lt (by omega : r < 32)]
  by_cases hbelow : j < 32 - r
  · have hindex : (j + r) % 32 = r + j := by omega
    simp [hbelow, hindex]
  · have hindex : (j + r) % 32 = j - (32 - r) := by omega
    simp [hbelow, hindex, Nat.lt_succ_of_le hj]

/-- Settles O15: the rotation is the library's, which gives its bits, and the two left amounts are one number. -/
theorem rotationFormsAgree : Obligations.RotationFormsAgree := by
  unfold Obligations.RotationFormsAgree
  intro x r hr
  have hmask : rotr32 x r = (x >>> r) ||| (x <<< ((-(r : Int)) % 32).toNat) := by
    rw [neg_emod_eq_rotr32_leftAmount hr, rotr32]
  exact ⟨rfl, fun j hj => rotr32_getLsbD x hr hj, hmask, rotr32_zero x⟩

end Sys2Proof.Machine
end

section
/-! PROOFS. Equal engines stay equal (R24, R129): the same commands, run on two machines, keep them in step. -/

namespace Sys2Proof.Machine

/-! ### Equal (seed, stream), equal engines (R24, R100). -/

/-- Forcing bit 0 to 1 leaves nothing of it: the bits from 1 up decide INC. -/
theorem or_one_congr {a b : Word64} (h : ∀ k, 1 ≤ k → a.getLsbD k = b.getLsbD k) : a ||| 1 = b ||| 1 := by
  refine BitVec.eq_of_getLsbD_eq fun k _ => ?_
  rw [BitVec.getLsbD_or, BitVec.getLsbD_or]
  obtain rfl | hk := Nat.eq_zero_or_pos k
  · simp
  · rw [h k hk]

theorem construct_sameEngine (seed : Word64) {stream₁ stream₂ : Word64} {s₁ s₂ : State} (hcfg : s₂.cfg = s₁.cfg)
    (h : ∀ k, 1 ≤ k → stream₁.getLsbD k = stream₂.getLsbD k) :
    SameEngine (construct seed stream₁ s₁) (construct seed stream₂ s₂) :=
  ⟨rfl, (or_one_congr h).symm, rfl, hcfg⟩

/-! ### Two machines in step. -/

/-- From `s` to `u` and from `t` to `v`, what `f` observes of a machine ends the same on both or is kept on both. -/
def SameOrKept {α : Type} (f : State → α) (s t u v : State) : Prop := f v = f u ∨ f u = f s ∧ f v = f t

theorem SameOrKept.trans {α : Type} {f : State → α} {s t u v x y : State} (h₁ : SameOrKept f s t u v)
    (h₂ : SameOrKept f u v x y) : SameOrKept f s t x y := by
  obtain hsame | ⟨hx, hy⟩ := h₂
  · exact .inl hsame
  · unfold SameOrKept
    rw [hx, hy]
    exact h₁

/-- What every completion writes (R204), as one value. -/
def errorReport (s : State) : ErrCode × Param × Word64 × Word64 := (s.err, s.param, s.errval, s.draws)

theorem sameErrorReport_iff {s t : State} : SameErrorReport s t ↔ errorReport t = errorReport s := by
  simp [SameErrorReport, errorReport]

/-- From `s` to `u` and from `t` to `v`, two machines stayed in step: the same engine again, and each report and each byte of
memory the same or as it was. Bytes need the same overtaken addresses (log entry 10), and those stay the same too. -/
structure InStep (s t u v : State) : Prop where
  engine : SameEngine u v
  result : SameOrKept State.result s t u v
  report : SameOrKept errorReport s t u v
  overtaken : t.overtaken = s.overtaken → v.overtaken = u.overtaken
  bytes : t.overtaken = s.overtaken → ∀ a, SameOrKept (·.mem.read a) s t u v

theorem InStep.refl {s t : State} (h : SameEngine s t) : InStep s t s t where
  engine := h
  result := .inr ⟨rfl, rfl⟩
  report := .inr ⟨rfl, rfl⟩
  overtaken := id
  bytes _ _ := .inr ⟨rfl, rfl⟩

theorem InStep.trans {s t u v x y : State} (h₁ : InStep s t u v) (h₂ : InStep u v x y) : InStep s t x y where
  engine := h₂.engine
  result := h₁.result.trans h₂.result
  report := h₁.report.trans h₂.report
  overtaken ho := h₂.overtaken (h₁.overtaken ho)
  bytes ho a := (h₁.bytes ho a).trans (h₂.bytes (h₁.overtaken ho) a)

theorem InStep.sameReport {s t u v : State} (h : InStep s t u v) :
    SameErrorReport u v ∨ SameErrorReport s u ∧ SameErrorReport t v := by
  simp only [sameErrorReport_iff]
  exact h.report

/-- Two results, reached from `s` and from `t`, are next states in step or the same fault. -/
def ResultsInStep (s t : State) (r r' : Result) : Prop :=
  (∃ u v, r = .next u ∧ r' = .next v ∧ InStep s t u v) ∨ ∃ e, r = .fault e ∧ r' = .fault e

/-! ### One command. -/

/-- A command that ends in a next state from one machine ends in one from the other, and a fault is a fault of both. -/
theorem EndsAlike.next_or_fault {s t : State} {r r' : Result} (h : EndsAlike s t r r') :
    (∃ u v, r = .next u ∧ r' = .next v) ∨ ∃ e, r = .fault e ∧ r' = .fault e := by
  cases h with
  | exhausted => exact .inr ⟨_, rfl, rfl⟩
  | constructed | cleared | failed | value | filled | stuck => exact .inl ⟨_, _, rfl, rfl⟩

theorem EndsAlike.sameEngine {s t u v : State} (h : EndsAlike s t (.next u) (.next v)) (he : SameEngine s t)
    (hla1 : t.la1 = s.la1) : SameEngine u v := by
  obtain ⟨hstate, hinc, hseeded, hcfg⟩ := he
  have hlcg := lcgAfter_congr hstate hinc
  cases h with
  | constructed => exact ⟨rfl, rfl, rfl, hcfg⟩
  | cleared | failed | stuck => exact ⟨hstate, hinc, hseeded, hcfg⟩
  | value k => exact ⟨congrFun hlcg k, hinc, hseeded, hcfg⟩
  | filled => exact ⟨by simp only [fillState, hlcg, hcfg, hla1], hinc, hseeded, hcfg⟩

theorem EndsAlike.sameResult {s t u v : State} (h : EndsAlike s t (.next u) (.next v)) :
    SameOrKept State.result s t u v := by
  cases h with
  | value => exact .inl rfl
  | constructed | cleared | failed | filled | stuck => exact .inr ⟨rfl, rfl⟩

theorem EndsAlike.sameReport {s t u v : State} (h : EndsAlike s t (.next u) (.next v)) (hcfg : t.cfg = s.cfg)
    (hla1 : t.la1 = s.la1) : SameOrKept errorReport s t u v := by
  cases h with
  | constructed | cleared | failed | value => exact .inl rfl
  | filled => exact .inl (by simp only [errorReport, fillState, hcfg, hla1])
  | stuck => exact .inr ⟨rfl, rfl⟩

/-- The machine with a command's operands latched, as `execAll` latches them (R13). -/
def State.withLatches (s : State) (a0 a1 t : Word64) : State := { s with la0 := a0, la1 := a1, lt := t }

/-- One command on two machines with the same engine, and with the same operands latched, leaves them in step. -/
theorem exec_resultsInStep (i : Instr) (a0 a1 lt : Word64) {s t : State} (he : SameEngine s t) :
    ResultsInStep s t (exec i (s.withLatches a0 a1 lt)) (exec i (t.withLatches a0 a1 lt)) := by
  have hlatched : SameEngine (s.withLatches a0 a1 lt) (t.withLatches a0 a1 lt) := he
  obtain ⟨hstate, hinc, hseeded, hcfg⟩ := hlatched
  have halike : EndsAlike (s.withLatches a0 a1 lt) (t.withLatches a0 a1 lt) _ _ :=
    exec_endsAlike i hseeded hstate hinc hcfg rfl rfl rfl
  obtain ⟨u, v, hu, hv⟩ | hfault := halike.next_or_fault
  · rw [hu, hv] at halike ⊢
    have hbytes := halike.sameBytes rfl rfl hstate hinc rfl rfl
    exact .inl ⟨u, v, rfl, rfl,
      { engine := halike.sameEngine he rfl
        result := halike.sameResult
        report := halike.sameReport hcfg rfl
        overtaken := fun ho => (hbytes ho).1
        bytes := fun ho => (hbytes ho).2 }⟩
  · exact .inr hfault

/-! ### Sequences of commands. -/

theorem execAll_cons_of_next {i : Instr} {a0 a1 lt : Word64} {s u : State} (rest : List (Instr × Word64 × Word64 × Word64))
    (h : exec i (s.withLatches a0 a1 lt) = .next u) : execAll ((i, a0, a1, lt) :: rest) s = execAll rest u := by
  unfold State.withLatches at h
  rw [execAll, h]

theorem execAll_cons_of_fault {i : Instr} {a0 a1 lt : Word64} {s : State} {e : Fault}
    (rest : List (Instr × Word64 × Word64 × Word64)) (h : exec i (s.withLatches a0 a1 lt) = .fault e) :
    execAll ((i, a0, a1, lt) :: rest) s = .fault e := by
  unfold State.withLatches at h
  rw [execAll, h]

/-- Any sequence of commands leaves two machines with the same engine in step. -/
theorem execAll_resultsInStep (cmds : List (Instr × Word64 × Word64 × Word64)) {s t : State} (he : SameEngine s t) :
    ResultsInStep s t (execAll cmds s) (execAll cmds t) := by
  induction cmds generalizing s t with
  | nil => exact .inl ⟨s, t, rfl, rfl, .refl he⟩
  | cons c rest ih =>
    obtain ⟨i, a0, a1, lt⟩ := c
    obtain ⟨u, v, hu, hv, hfirst⟩ | ⟨e, hs, ht⟩ := exec_resultsInStep i a0 a1 lt he
    · rw [execAll_cons_of_next rest hu, execAll_cons_of_next rest hv]
      obtain ⟨x, y, hx, hy, hrest⟩ | hfault := ih hfirst.engine
      · exact .inl ⟨x, y, hx, hy, hfirst.trans hrest⟩
      · exact .inr hfault
    · exact .inr ⟨e, execAll_cons_of_fault rest hs, execAll_cons_of_fault rest ht⟩

/-- Settles O20, by induction on the commands: one command from the same engine and operands ends alike on both machines, and
being in step is transitive. -/
theorem equalEnginesStayEqual : Obligations.EqualEnginesStayEqual := by
  unfold Obligations.EqualEnginesStayEqual
  refine ⟨fun seed _ _ _ _ hcfg hbits => construct_sameEngine seed hcfg hbits, fun cmds s₁ s₂ he => ?_⟩
  obtain ⟨u, v, hu, hv, h⟩ | ⟨e, hs, ht⟩ := execAll_resultsInStep cmds he
  · rw [hu, hv]
    refine ⟨?_, fun _ hfault => nomatch hfault⟩
    rintro _ ⟨rfl⟩
    exact ⟨v, rfl, h.engine, h.result, h.sameReport, fun ho₁ ho₂ => h.bytes (ho₂.trans ho₁.symm)⟩
  · rw [hs, ht]
    exact ⟨fun _ hnext => (nomatch hnext), fun _ hfault => hfault⟩

end Sys2Proof.Machine
end

section
/-! PROOFS. The command words (30_encoding.md): which words are illegal (R74), and the twelve that are legal (R75). -/

namespace Sys2Proof

/-! ### The opcode map (R71). -/

/-- An entry of the opcode map stands under its command's own OPCODE. -/
theorem opcode_of_lookup_opcodeTable {op : BitVec 8} {i : Instr} (h : opcodeTable.lookup op = some i) : i.opcode = op := by
  have hentries : ∀ e ∈ opcodeTable, e.2.opcode = e.1 := by decide
  obtain ⟨before, after, htable, -⟩ := List.lookup_eq_some_iff.1 h
  exact hentries (op, i) (by simp [htable])

/-- R71 assigns a command to the eleven OPCODE values of R74 (b) and to no other. -/
theorem lookup_opcodeTable_isSome_iff (op : BitVec 8) :
    (opcodeTable.lookup op).isSome = true ↔ op ∈ assignedOpcodes := by
  have hkeys : opcodeTable.map Prod.fst = assignedOpcodes := rfl
  simp [List.lookup_isSome_iff, ← hkeys]

@[simp] theorem Instr.opcode_withBufferBit (p : Bool) (i : Instr) : (i.withBufferBit p).opcode = i.opcode := by
  cases i <;> rfl

/-- Only FILL takes the word's P (R70). -/
theorem Instr.bufferBit_withBufferBit (p : Bool) (i : Instr) :
    (i.withBufferBit p).bufferBit = (i.opcode == 0x15 && p) := by
  cases i <;> rfl

/-! ### The decoder by R74's checks. -/

theorem CmdFields.wellFormed_iff (f : CmdFields) :
    f.wellFormed = true ↔ f.res = 0 ∧ f.opcode ∈ assignedOpcodes ∧ (f.p = true → f.opcode = 0x15) := by
  have hbufferBit : f.bufferBitOk = true ↔ (f.p = true → f.opcode = 0x15) := by cases hp : f.p <;> simp [bufferBitOk, hp]
  simp only [wellFormed, Bool.and_eq_true, hbufferBit, and_assoc]
  simp [resOk, opcodeOk]

theorem Decoded.isLegal_iff (d : Decoded) : d.isLegal = true ↔ ∃ i, d = .legal i := by
  cases d with
  | legal i => simp [isLegal]
  | illegal why => simp [isLegal]

theorem Decoded.exists_eq_illegal_iff (d : Decoded) : (∃ why, d = .illegal why) ↔ d.isLegal = false := by
  cases d with
  | legal i => simp [isLegal]
  | illegal why => simp [isLegal]

/-- The decoder's tests, in R75's order, refuse exactly the field triples that fail one of R74's checks; the others are the
command of their OPCODE. -/
theorem decodeFields_eq_legal_iff (f : CmdFields) (i : Instr) :
    decodeFields f = .legal i ↔
      f.wellFormed = true ∧ ∃ j, opcodeTable.lookup f.opcode = some j ∧ j.withBufferBit f.p = i := by
  rw [CmdFields.wellFormed_iff, ← lookup_opcodeTable_isSome_iff]
  unfold decodeFields
  split
  · next hres => exact iff_of_false nofun fun ⟨⟨h, _, _⟩, _⟩ => hres h
  next hres =>
  split
  · next hnone => exact iff_of_false nofun fun ⟨_, j, h, _⟩ => nomatch hnone.symm.trans h
  next j hsome =>
  split
  · next hp => exact iff_of_false nofun fun ⟨⟨_, _, h⟩, _⟩ => hp.2 (h hp.1)
  · next hp =>
    have hwf : f.res = 0 ∧ (opcodeTable.lookup f.opcode).isSome = true ∧ (f.p = true → f.opcode = 0x15) :=
      ⟨not_not.1 hres, by simp [hsome], fun h => not_not.1 fun hne => hp ⟨h, hne⟩⟩
    rw [and_iff_right hwf, hsome]
    simp

theorem isLegal_decodeFields (f : CmdFields) : (decodeFields f).isLegal = true ↔ f.wellFormed = true := by
  have hassigned (h : f.wellFormed = true) : ∃ j, opcodeTable.lookup f.opcode = some j :=
    Option.isSome_iff_exists.1 ((lookup_opcodeTable_isSome_iff f.opcode).2 (f.wellFormed_iff.1 h).2.1)
  simpa [Decoded.isLegal_iff, decodeFields_eq_legal_iff] using hassigned

/-! ### Illegal words (R74). -/

theorem CmdFields.wellFormed_eq_false_iff (f : CmdFields) :
    f.wellFormed = false ↔
      f.res ≠ 0 ∨ f.opcode ∉ assignedOpcodes ∨ (f.p = true ∧ f.opcode ≠ 0x15) := by
  rw [← Bool.not_eq_true, wellFormed_iff]
  tauto

/-- R74's clauses as numbers: RES, OPCODE and P of a word by division. -/
theorem wellFormed_ofWord_eq_false_iff (w : Word32) :
    (CmdFields.ofWord w).wellFormed = false ↔
      (w.toNat / 2 ^ 9 ≠ 0 ∨
        w.toNat % 2 ^ 8 ∉ [0x01, 0x02, 0x03, 0x08, 0x10, 0x11, 0x12, 0x13, 0x14, 0x15, 0x16] ∨
        (w.toNat / 2 ^ 8 % 2 = 1 ∧ w.toNat % 2 ^ 8 ≠ 0x15)) := by
  have hassigned :
      assignedOpcodes.map BitVec.toNat = [0x01, 0x02, 0x03, 0x08, 0x10, 0x11, 0x12, 0x13, 0x14, 0x15, 0x16] := rfl
  rw [CmdFields.wellFormed_eq_false_iff, ← CmdFields.res_ofWord, ← CmdFields.opcode_ofWord, ← CmdFields.p_ofWord,
    ← hassigned, Bool.toNat_eq_one, List.mem_map_of_injective fun _ _ => BitVec.eq_of_toNat_eq]
  simp [← BitVec.toNat_inj]

/-- Settles O4: the decoder's tests are R74's three clauses, and an illegal word's command ends in `raiseError`. -/
theorem illegalWordsByClause : Obligations.IllegalWordsByClause := by
  unfold Obligations.IllegalWordsByClause
  refine ⟨fun w => ?_, fun s hillegal => ?_⟩
  · rw [Decoded.exists_eq_illegal_iff, decode, ← Bool.not_eq_true, isLegal_decodeFields, Bool.not_eq_true,
      wellFormed_ofWord_eq_false_iff]
  · obtain ⟨_, hwhy⟩ := hillegal
    exact ⟨_, Machine.runCommand_illegal hwhy, Machine.raiseError_ends _ _ _ s⟩

/-! ### One word for each command (R75). -/

/-- The fields of a command's word (R70, R71). -/
def Instr.fields (i : Instr) : CmdFields := { opcode := i.opcode, p := i.bufferBit, res := 0 }

theorem encode_eq_toWord_fields (i : Instr) : encode i = i.fields.toWord := rfl

theorem decodeFields_fields (i : Instr) : decodeFields i.fields = .legal i := by
  cases i with
  | fill present => cases present <;> rfl
  | _ => rfl

/-- A well-formed field triple has no field beside those of the command it decodes to: RES is 0, and P is 0 outside FILL. -/
theorem eq_fields_of_decodeFields {f : CmdFields} {i : Instr} (h : decodeFields f = .legal i) : f = i.fields := by
  obtain ⟨hwf, j, hlookup, rfl⟩ := (decodeFields_eq_legal_iff f i).1 h
  obtain ⟨hres, -, hp⟩ := f.wellFormed_iff.1 hwf
  have hopcode : j.opcode = f.opcode := opcode_of_lookup_opcodeTable hlookup
  have hbit : (f.opcode == 0x15 && f.p) = f.p := by simpa using hp
  rw [Instr.fields, Instr.opcode_withBufferBit, Instr.bufferBit_withBufferBit, hopcode, hbit, ← hres]

/-- A word decodes to a command exactly when it is that command's encoding (R70, R75). -/
theorem decode_eq_legal_iff (w : Word32) (i : Instr) : decode w = .legal i ↔ w = encode i := by
  rw [decode, encode_eq_toWord_fields]
  constructor
  · intro h
    rw [← eq_fields_of_decodeFields h, CmdFields.toWord_ofWord]
  · rintro rfl
    rw [CmdFields.ofWord_toWord, decodeFields_fields]

/-! ### The twelve legal words (R75). -/

/-- The commands of R75's list, FILL with either value of P. -/
def commands : List Instr :=
  [.seed, .seedd, .seedt, .clrstat, .nextu32, .bounded, .next, .below, .range, .fill false, .fill true, .sample]

theorem mem_commands (i : Instr) : i ∈ commands := by
  cases i with
  | fill present => cases present <;> decide
  | _ => decide

theorem isLegal_decode_iff_mem (w : Word32) : (decode w).isLegal = true ↔ w ∈ commands.map encode := by
  simp [Decoded.isLegal_iff, decode_eq_legal_iff, mem_commands, eq_comm (a := w)]

theorem mem_map_encode_toNat_iff (w : Word32) (i : Instr) :
    (w.toNat, i) ∈ commands.map (fun j => ((encode j).toNat, j)) ↔ w = encode i := by
  simp only [List.mem_map, Prod.mk.injEq, BitVec.toNat_inj]
  constructor
  · rintro ⟨_, -, rfl, rfl⟩
    rfl
  · rintro rfl
    exact ⟨i, mem_commands i, rfl, rfl⟩

/-- Settles O5: the legal words are the encodings of the twelve commands, pairwise different, and R75's pairs are those words. -/
theorem exactlyTwelveLegalWords : Obligations.ExactlyTwelveLegalWords := by
  unfold Obligations.ExactlyTwelveLegalWords
  refine ⟨?_, fun w i => ?_⟩
  · have hlegal : (Finset.univ.filter fun w : Word32 => (decode w).isLegal = true) = (commands.map encode).toFinset := by
      ext w
      simp [isLegal_decode_iff_mem]
    have hnodup : (commands.map encode).Nodup := by decide
    rw [hlegal, List.toFinset_card_of_nodup hnodup, List.length_map]
    rfl
  · rw [decode_eq_legal_iff, ← mem_map_encode_toNat_iff]
    rfl

end Sys2Proof
end

section
/-! PROOFS. Construction and control (40_construction.md): `Construct` (R100), the commands built on it (R101 to R106), and
CLRSTAT (R108). -/

namespace Sys2Proof.Machine

/-! ### `Construct` (R100). -/

theorem construct_inc_getLsbD_zero (seed stream : Word64) (s : State) : (construct seed stream s).inc.getLsbD 0 = true := by
  simp

theorem construct_inc_getLsbD_of_pos (seed stream : Word64) (s : State) {k : Nat} (hk : 1 ≤ k) :
    (construct seed stream s).inc.getLsbD k = stream.getLsbD k := by
  have hone : (1 : Word64).getLsbD k = false := by simp [Nat.ne_of_gt hk]
  rw [construct_inc, BitVec.getLsbD_or, hone, Bool.or_false]

theorem construct_reportsKept (seed stream : Word64) (s : State) : ReportsKept s (construct seed stream s) :=
  ⟨rfl, rfl, rfl, rfl, rfl⟩

theorem construct_memoryKept (seed stream : Word64) (s : State) : MemoryKept s (construct seed stream s) := fun _ => rfl

theorem construct_surroundingsKept (seed stream : Word64) (s : State) : SurroundingsKept s (construct seed stream s) :=
  SurroundingsKept.refl s

/-- Settles O7: `stream | 1` is the stream from bit 1 up, and `Construct` writes STATE, INC and SEEDED alone. -/
theorem constructLoadsTheEngine : Obligations.ConstructLoadsTheEngine := by
  unfold Obligations.ConstructLoadsTheEngine
  intro seed stream s
  exact ⟨rfl, construct_inc_getLsbD_zero seed stream s, fun _ => construct_inc_getLsbD_of_pos seed stream s, rfl, rfl, rfl, rfl,
    rfl, construct_reportsKept seed stream s, construct_memoryKept seed stream s, construct_surroundingsKept seed stream s⟩

/-! ### The construction commands (R101 to R106). -/

/-- The state after a construction command. -/
def constructedState (seed stream : Word64) (s : State) : State := complete (construct seed stream (startCommand s))

theorem constructedState_ends (seed stream : Word64) (s : State) :
    ConstructionEnds s (constructedState seed stream s) seed stream :=
  ⟨rfl, rfl, rfl, ⟨rfl, rfl, rfl, rfl, rfl⟩, rfl, rfl, fun _ => rfl, SurroundingsKept.refl s⟩

theorem exec_seed (s : State) : exec .seed s = .next (constructedState s.la0 s.la1 s) := rfl

theorem exec_seedd (s : State) : exec .seedd s = .next (constructedState s.la0 s.cfg.defaultStream s) := rfl

theorem exec_seedt (s : State) : exec .seedt s = .next (constructedState s.lt s.cfg.defaultStream s) := rfl

/-- Settles O8: SEED constructs from both latched operands. -/
theorem seedConstructs : Obligations.SeedConstructs := by
  unfold Obligations.SeedConstructs
  exact ⟨(decode_eq_legal_iff _ _).2 (by decide), fun s => ⟨_, exec_seed s, constructedState_ends _ _ s⟩⟩

/-- Settles O9: SEEDD constructs from the first latched operand and the parameter. -/
theorem seeddConstructs : Obligations.SeeddConstructs := by
  unfold Obligations.SeeddConstructs
  exact ⟨(decode_eq_legal_iff _ _).2 (by decide), fun s => ⟨_, exec_seedd s, constructedState_ends _ _ s⟩⟩

/-- The machine with another engine. -/
def State.withEngine (s : State) (x y : Word64) (b : Bool) : State := { s with stateReg := x, inc := y, seeded := b }

theorem withEngine_self (s : State) : s.withEngine s.stateReg s.inc s.seeded = s := rfl

/-! A construction reads the latches and the parameters, which no change of engine touches. -/

@[simp] theorem withEngine_la0 (s : State) (x y : Word64) (b : Bool) : (s.withEngine x y b).la0 = s.la0 := rfl
@[simp] theorem withEngine_la1 (s : State) (x y : Word64) (b : Bool) : (s.withEngine x y b).la1 = s.la1 := rfl
@[simp] theorem withEngine_lt (s : State) (x y : Word64) (b : Bool) : (s.withEngine x y b).lt = s.lt := rfl
@[simp] theorem withEngine_cfg (s : State) (x y : Word64) (b : Bool) : (s.withEngine x y b).cfg = s.cfg := rfl

/-- `Construct` overwrites the whole engine, so nothing of the one before is left (R106). -/
@[simp] theorem constructedState_withEngine (seed stream : Word64) (s : State) (x y : Word64) (b : Bool) :
    constructedState seed stream (s.withEngine x y b) = constructedState seed stream s := rfl

/-- A construction command takes its seed and stream from outside the engine: whatever engine stands there, it loads the same. -/
theorem exec_withEngine_of_isConstruction {i : Instr} (hi : i.isConstruction = true) (s : State) :
    ∃ seed stream, ∀ x y b, exec i (s.withEngine x y b) = .next (constructedState seed stream s) := by
  cases i with
  | seed => exact ⟨s.la0, s.la1, fun x y b => by simp [exec_seed]⟩
  | seedd => exact ⟨s.la0, s.cfg.defaultStream, fun x y b => by simp [exec_seedd]⟩
  | seedt => exact ⟨s.lt, s.cfg.defaultStream, fun x y b => by simp [exec_seedt]⟩
  | clrstat | nextu32 | bounded | next | below | range | fill | sample => cases hi

/-- Settles O11: a construction command loads the same engine over any engine, the state's own among them. -/
theorem constructionReplacesTheEngine : Obligations.ConstructionReplacesTheEngine := by
  unfold Obligations.ConstructionReplacesTheEngine
  intro i s x y b hi
  obtain ⟨seed, stream, hexec⟩ := exec_withEngine_of_isConstruction hi s
  have hown : exec i s = .next (constructedState seed stream s) := by
    rw [← hexec s.stateReg s.inc s.seeded, withEngine_self]
  exact ⟨⟨_, hown⟩, (hexec x y b).trans hown.symm⟩

/-! ### CLRSTAT (R108). -/

/-- The state after CLRSTAT. -/
def clearedState (s : State) : State := complete { startCommand s with ovr := false }

theorem exec_clrstat (s : State) : exec .clrstat s = .next (clearedState s) := rfl

theorem clearedState_reportsSuccess (s : State) : ReportsSuccess (clearedState s) 0 := ⟨rfl, rfl, rfl, rfl, rfl⟩

theorem clearedState_engineKept (s : State) : EngineKept s (clearedState s) := ⟨rfl, rfl, rfl⟩

theorem clearedState_memoryKept (s : State) : MemoryKept s (clearedState s) := fun _ => rfl

theorem clearedState_surroundingsKept (s : State) : SurroundingsKept s (clearedState s) := SurroundingsKept.refl s

/-- Settles O12: CLRSTAT has no gate, so on every state it is a completion with OVR cleared. -/
theorem clrstatClearsOverrun : Obligations.ClrstatClearsOverrun := by
  unfold Obligations.ClrstatClearsOverrun
  refine ⟨(decode_eq_legal_iff _ _).2 (by decide), fun s => ⟨clearedState s, exec_clrstat s, rfl, ?_⟩⟩
  exact ⟨clearedState_reportsSuccess s, rfl, clearedState_engineKept s, clearedState_memoryKept s,
    clearedState_surroundingsKept s⟩

end Sys2Proof.Machine
end

section
/-! PROOFS. The raw draw (41_raw_draw.md): the output and the bits it reads (R120 to R126), the period and the balance of the
draws (R127), and NEXTU32 (R128). -/

namespace Sys2Proof.Machine

/-! ### The output and the bits it reads (R120, R123, R126). -/

theorem xorshifted_getLsbD (old : Word64) {j : Nat} (hj : j ≤ 31) :
    (xorshifted old).getLsbD j = (old.getLsbD (27 + j) ^^ old.getLsbD (45 + j)) := by
  have hindex : 18 + (27 + j) = 45 + j := by omega
  have hwidth : j < 32 := by omega
  simp [xorshifted, hwidth, hindex, Bool.xor_comm]

/-- Settles O14: bit `j` of the low half is bit `27 + j` of the value shifted by 27. -/
theorem xorshiftBitForm : Obligations.XorshiftBitForm := by
  unfold Obligations.XorshiftBitForm
  exact fun old _ hj => xorshifted_getLsbD old hj

theorem xorshifted_toNat (old : Word64) :
    (xorshifted old).toNat = ((old.toNat / 2 ^ 18) ^^^ old.toNat) / 2 ^ 27 % 2 ^ 32 := by
  simp [xorshifted, Nat.shiftRight_eq_div_pow]

theorem rotAmount_eq_div (old : Word64) : rotAmount old = old.toNat / 2 ^ 59 := by
  simp [rotAmount, Nat.shiftRight_eq_div_pow]

/-- The rotation amount is the top field of the pre-advance state (R124). -/
theorem rotAmount_eq_topBits (old : Word64) : rotAmount old = (old.extractLsb' 59 5).toNat := by
  rw [rotAmount_eq_div, BitVec.extractLsb'_toNat, Nat.shiftRight_eq_div_pow]
  omega

theorem rotAmount_le (old : Word64) : rotAmount old ≤ 31 := by
  rw [rotAmount_eq_div]
  omega

/-- Two values have the same field exactly when they agree in each of its bits. -/
theorem extractLsb'_eq_iff {w : Nat} (a b : BitVec w) (start len : Nat) :
    a.extractLsb' start len = b.extractLsb' start len ↔ ∀ i, i < len → a.getLsbD (start + i) = b.getLsbD (start + i) := by
  constructor
  · intro h i hi
    simpa [hi] using congrArg (·.getLsbD i) h
  · intro h
    refine BitVec.eq_of_getLsbD_eq fun i hi => ?_
    simp [hi, h i hi]

/-- The bits above 63 are 0 in both values, so agreement in bits 63:27 is agreement from bit 27 up. -/
theorem getLsbD_eq_of_high_eq {a b : Word64} (h : a.extractLsb' 27 37 = b.extractLsb' 27 37) {k : Nat} (hk : 27 ≤ k) :
    a.getLsbD k = b.getLsbD k := by
  obtain ⟨i, rfl⟩ := Nat.exists_eq_add_of_le hk
  by_cases hi : i < 37
  · exact (extractLsb'_eq_iff a b 27 37).1 h i hi
  · rw [BitVec.getLsbD_of_ge a _ (by omega), BitVec.getLsbD_of_ge b _ (by omega)]

/-- Settles O16: the xorshift reads bits from 27 up (R123) and the rotation amount bits from 59 up (R124). -/
theorem outputReadsBits63To27 : Obligations.OutputReadsBits63To27 := by
  unfold Obligations.OutputReadsBits63To27
  intro a b h
  have hxs : xorshifted a = xorshifted b := BitVec.eq_of_getLsbD_eq fun j hj => by
    rw [xorshifted_getLsbD a (by omega), xorshifted_getLsbD b (by omega), getLsbD_eq_of_high_eq h (by omega),
      getLsbD_eq_of_high_eq h (by omega)]
  have hrot : rotAmount a = rotAmount b := by
    rw [rotAmount_eq_topBits, rotAmount_eq_topBits,
      (extractLsb'_eq_iff a b 59 5).2 fun i _ => getLsbD_eq_of_high_eq h (by omega)]
  rw [output, output, hxs, hrot]

/-! ### `Draw()` (R120, R121). -/

theorem draw_reportsKept (s : State) : ReportsKept s (draw s).2 := ⟨rfl, rfl, rfl, rfl, rfl⟩

theorem draw_memoryKept (s : State) : MemoryKept s (draw s).2 := fun _ => rfl

theorem draw_surroundingsKept (s : State) : SurroundingsKept s (draw s).2 := SurroundingsKept.refl s

/-- Settles O13: the value that is rotated is the xorshift of the pre-advance state. -/
theorem drawAdvancesAndPermutes : Obligations.DrawAdvancesAndPermutes := by
  unfold Obligations.DrawAdvancesAndPermutes
  intro s
  have hout : (draw s).1 = rotr32 (xorshifted s.stateReg) (s.stateReg.toNat / 2 ^ 59) := by
    rw [draw_fst, output, rotAmount_eq_div]
  have hadvance : (draw s).2.stateReg.toNat = (s.stateReg.toNat * 6364136223846793005 + s.inc.toNat) % 2 ^ 64 := by
    rw [draw_stateReg, advance_toNat, Nat.mul_comm]
  exact ⟨xorshifted s.stateReg, xorshifted_toNat s.stateReg, hout, hadvance, rfl, rfl, rfl, rfl, rfl, draw_reportsKept s,
    draw_memoryKept s, draw_surroundingsKept s⟩

/-! ### What the output forgets (R123, R127).

A pre-advance state is its output, its top 5 bits and its low 27 bits: the top bits undo the rotation, and the xorshift then gives
bit 27 + j from bit 45 + j, from the top down. So each output has one state for each choice of the other 32 bits. -/

theorem rotr32_injective {r : Nat} (hr : r ≤ 31) : Function.Injective (rotr32 · r) := by
  intro x y h
  refine BitVec.eq_of_getLsbD_eq fun j hj => ?_
  have hbit := congrArg (·.getLsbD ((j + (32 - r)) % 32)) h
  have hindex : ((j + (32 - r)) % 32 + r) % 32 = j := by omega
  simpa only [rotr32_getLsbD _ hr (by omega : (j + (32 - r)) % 32 ≤ 31), hindex] using hbit

/-- The xorshift can be undone bit by bit from the top, once the bits it does not reach are known. -/
theorem eq_of_xorshifted_eq {a b : Word64} (hxs : xorshifted a = xorshifted b)
    (htop : a.extractLsb' 59 5 = b.extractLsb' 59 5) (hlow : a.extractLsb' 0 27 = b.extractLsb' 0 27) : a = b := by
  rw [extractLsb'_eq_iff] at htop hlow
  have hfrom : ∀ n k, 64 ≤ k + n → a.getLsbD k = b.getLsbD k := by
    intro n
    induction n with
    | zero => exact fun k hk => by rw [BitVec.getLsbD_of_ge a k hk, BitVec.getLsbD_of_ge b k hk]
    | succ n ih =>
      intro k hk
      rcases Nat.lt_or_ge k 27 with hk27 | hk27
      · simpa using hlow k hk27
      obtain ⟨j, rfl⟩ := Nat.exists_eq_add_of_le hk27
      rcases Nat.lt_or_ge j 32 with hj | hj
      · have hbit := congrArg (·.getLsbD j) hxs
        simpa only [xorshifted_getLsbD _ (Nat.le_of_lt_succ hj), ih (45 + j) (by omega), Bool.xor_left_inj] using hbit
      · obtain ⟨i, rfl⟩ := Nat.exists_eq_add_of_le hj
        rcases Nat.lt_or_ge i 5 with hi | hi
        · rw [← Nat.add_assoc]
          exact htop i hi
        · exact ih _ (by omega)
  exact BitVec.eq_of_getLsbD_eq fun k _ => hfrom 64 k (by omega)

/-- The top 5 and the low 27 bits of a pre-advance state: what its output leaves open. -/
def otherBits (old : Word64) : BitVec 5 × BitVec 27 := (old.extractLsb' 59 5, old.extractLsb' 0 27)

theorem eq_of_output_eq {a b : Word64} (hout : output a = output b) (hother : otherBits a = otherBits b) : a = b := by
  obtain ⟨htop, hlow⟩ := Prod.mk.inj hother
  have hrot : rotAmount a = rotAmount b := by rw [rotAmount_eq_topBits, rotAmount_eq_topBits, htop]
  have hxs : xorshifted a = xorshifted b := rotr32_injective (rotAmount_le b) (by simpa only [output, hrot] using hout)
  exact eq_of_xorshifted_eq hxs htop hlow

theorem natCard_bitVec (w : Nat) : Nat.card (BitVec w) = 2 ^ w := by
  rw [Nat.card_congr BitVec.equivFin.toEquiv, Nat.card_fin]

theorem natCard_otherBits : Nat.card (BitVec 5 × BitVec 27) = 2 ^ 32 := by
  rw [Nat.card_prod, natCard_bitVec, natCard_bitVec, ← Nat.pow_add]

/-- Counting: the pairs of an output and the other bits are no more than the states, so each pair comes from one state. -/
theorem output_otherBits_bijective : Function.Bijective fun old => (output old, otherBits old) := by
  refine Function.Injective.bijective_of_nat_card_le (fun a b h => ?_) ?_
  · exact eq_of_output_eq (Prod.mk.inj h).1 (Prod.mk.inj h).2
  · rw [Nat.card_prod, natCard_otherBits, natCard_bitVec, natCard_bitVec, ← Nat.pow_add]

/-! ### The period and the balance of the draws (R127). -/

theorem lcgAfter_injOn {s : State} (h : s.inc.getLsbD 0 = true) {i j : Nat} (hi : i < 2 ^ 64) (hj : j < 2 ^ 64)
    (he : s.lcgAfter i = s.lcgAfter j) : i = j := by
  rcases Nat.le_total i j with hij | hij
  · exact advance_iterate_injOn h s.stateReg hj hij he
  · exact (advance_iterate_injOn h s.stateReg hi hij he.symm).symm

theorem lcgAfter_existsUnique {s : State} (h : s.inc.getLsbD 0 = true) (old : Word64) :
    ∃! k : Nat, k < 2 ^ 64 ∧ s.lcgAfter k = old := by
  obtain ⟨k, hk, hold⟩ := lcgAfter_reaches h old
  exact ⟨k, ⟨hk, hold⟩, fun j ⟨hj, hj'⟩ => lcgAfter_injOn h hj hk (hj'.trans hold.symm)⟩

/-- The draws of one output, over a period, are told apart by the other bits of their pre-advance states, and every choice of these
occurs. -/
theorem otherBits_bijective_of_drawAt {s : State} (h : s.inc.getLsbD 0 = true) (out : Word32) :
    Function.Bijective fun k : { k : Nat // k < 2 ^ 64 ∧ s.drawAt k = out } => otherBits (s.lcgAfter k) := by
  constructor
  · rintro ⟨i, hi, hiout⟩ ⟨j, hj, hjout⟩ he
    exact Subtype.ext (lcgAfter_injOn h hi hj (eq_of_output_eq (hiout.trans hjout.symm) he))
  · intro other
    obtain ⟨old, hold⟩ := output_otherBits_bijective.surjective (out, other)
    obtain ⟨k, hk, rfl⟩ := lcgAfter_reaches h old
    obtain ⟨hout, hother⟩ := Prod.mk.inj hold
    exact ⟨⟨k, hk, hout⟩, hother⟩

/-- Settles O18: a period visits each state once, and the draws of one output correspond to the 2^32 choices of the other bits. -/
theorem fullPeriodAndBalance : Obligations.FullPeriodAndBalance := by
  unfold Obligations.FullPeriodAndBalance
  intro s h
  refine ⟨lcgAfter_existsUnique h, fun out => ?_⟩
  rw [Nat.card_eq_of_bijective _ (otherBits_bijective_of_drawAt h out), natCard_otherBits]

/-! ### NEXTU32 (R128). -/

theorem exec_nextu32_of_seeded {s : State} (h : s.seeded = true) :
    exec .nextu32 s = .next (valueState s 1 (zext32 (output s.stateReg))) := by
  unfold exec execNextu32
  rw [requireSeeded_of_seeded _ h, completeValue_draw, draw_fst, startCommand_stateReg]

theorem unseededEnds_of_isDrawing {i : Instr} (hi : i.isDrawing = true) (s : State) : UnseededEnds s i :=
  fun hs => ⟨_, exec_of_unseeded hi hs, raiseError_ends .unseeded .noParam 0 s⟩

/-- Settles O19: past the gate of R232, NEXTU32 is one draw and a completion with its output. -/
theorem nextu32Draws : Obligations.Nextu32Draws := by
  unfold Obligations.Nextu32Draws
  exact ⟨(decode_eq_legal_iff _ _).2 (by decide), fun s =>
    ⟨unseededEnds_of_isDrawing rfl s, fun h => ⟨_, exec_nextu32_of_seeded h, valueState_ends s 1 _⟩⟩⟩

end Sys2Proof.Machine
end

section
/-! PROOFS. The bounded draw (42_bounded.md): the threshold's two forms (R141), the bias (R142), termination (R143), the range (R144)
and BOUNDED (R146). -/

namespace Sys2Proof.Machine

/-! ### The threshold (R141). -/

/-- DOC's dividend does not wrap. -/
theorem threshold_doc_toNat (max : Word32) : (threshold .doc max).toNat = (2 ^ 32 - 1 - max.toNat) % max.toNat := by
  have hle : max ≤ u32Max := Nat.le_sub_one_of_lt max.isLt
  rw [threshold, BitVec.toNat_umod, BitVec.toNat_sub_of_le hle]
  rfl

/-- REF's dividend wraps at max = 0 alone. -/
theorem threshold_ref_toNat {max : Word32} (h : max ≠ 0) :
    (threshold .ref max).toNat = (2 ^ 32 - max.toNat) % max.toNat := by
  have hneg : (0 - max).toNat = 2 ^ 32 - max.toNat := by bv_omega
  rw [threshold, BitVec.toNat_umod, hneg]

theorem threshold_lt (form : ThresholdForm) {max : Word32} (h : max ≠ 0) : threshold form max < max := by
  have hpos : 0 < max := (BitVec.pos_iff_ne_zero max).2 h
  cases form with
  | doc => exact BitVec.umod_lt _ hpos
  | ref => exact BitVec.umod_lt _ hpos

/-- Settles O21: each form's dividend as a number, and a remainder is below its divisor. -/
theorem thresholdForms : Obligations.ThresholdForms := by
  unfold Obligations.ThresholdForms
  exact fun max h => ⟨threshold_doc_toNat max, threshold_ref_toNat h, fun form => threshold_lt form h⟩

/-! ### The bias (R142).

The accepted draws are `t + i` for `i < 2^32 - t`. Every max consecutive ones hold each result once, so all that matters is how many
are left over when max divides their number: none under REF, and under DOC one, which has the result `t`. -/

/-- The threshold under REF is 2^32 modulo max, so what is accepted is a multiple of max. -/
theorem dvd_acceptedCount_ref {max : Word32} (h : max ≠ 0) : max.toNat ∣ 2 ^ 32 - (threshold .ref max).toNat := by
  rw [threshold_ref_toNat h, ← Nat.mod_eq_sub_mod (Nat.le_of_lt max.isLt)]
  exact Nat.dvd_sub_mod _

/-- The threshold under DOC is U32_MAX modulo max, so what is accepted is one more than a multiple of max. -/
theorem dvd_acceptedCount_doc_sub_one (max : Word32) : max.toNat ∣ 2 ^ 32 - (threshold .doc max).toNat - 1 := by
  rw [threshold_doc_toNat, ← Nat.mod_eq_sub_mod (Nat.le_sub_one_of_lt max.isLt), Nat.sub_right_comm]
  exact Nat.dvd_sub_mod _

/-- The accepted draws with a given result, by their distance from the threshold. -/
def acceptedEquiv (t max v : Word32) :
    { r : Word32 // t ≤ r ∧ r % max = v } ≃ { i : Nat // i < 2 ^ 32 - t.toNat ∧ (t.toNat + i) % max.toNat = v.toNat } where
  toFun r := ⟨r.1.toNat - t.toNat, by
    obtain ⟨r, hle, rfl⟩ := r
    have hle : t.toNat ≤ r.toNat := hle
    refine ⟨by omega, ?_⟩
    rw [Nat.add_sub_cancel' hle, BitVec.toNat_umod]⟩
  invFun i := ⟨BitVec.ofNat 32 (t.toNat + i), by
    obtain ⟨i, hi, hv⟩ := i
    have hnat : (BitVec.ofNat 32 (t.toNat + i)).toNat = t.toNat + i := by
      rw [BitVec.toNat_ofNat, Nat.mod_eq_of_lt (by omega)]
    refine ⟨?_, BitVec.eq_of_toNat_eq ?_⟩
    · rw [BitVec.le_def, hnat]
      exact Nat.le_add_right _ _
    · rw [BitVec.toNat_umod, hnat, hv]⟩
  left_inv := by
    rintro ⟨r, hle, -⟩
    have hle : t.toNat ≤ r.toNat := hle
    exact Subtype.ext (by simp [Nat.add_sub_cancel' hle])
  right_inv := by
    rintro ⟨i, hi, -⟩
    refine Subtype.ext ?_
    simp only [BitVec.toNat_ofNat]
    omega

/-- Numbers from `t` on with remainder `v`, by their distance from `t`. -/
theorem add_mod_eq_iff {t i m v : Nat} (ht : t < m) (hv : v < m) : (t + i) % m = v ↔ i ≡ v + (m - t) [MOD m] := by
  have hcycle : i + t + (m - t) = i + m := by omega
  calc (t + i) % m = v ↔ i + t ≡ v [MOD m] := by rw [Nat.ModEq, Nat.mod_eq_of_lt hv, Nat.add_comm]
    _ ↔ i + t + (m - t) ≡ v + (m - t) [MOD m] := ⟨.add_right _, .add_right_cancel' _⟩
    _ ↔ i ≡ v + (m - t) [MOD m] := by rw [hcycle, Nat.ModEq, Nat.add_mod_right, Nat.ModEq]

/-- How often a result occurs: once in each full cycle, and once more if it is among the left-over draws. -/
theorem card_accepted {t max v : Word32} (ht : t < max) (hv : v < max) :
    Nat.card { r : Word32 // t ≤ r ∧ r % max = v } =
      (2 ^ 32 - t.toNat) / max.toNat +
        if (v.toNat + (max.toNat - t.toNat)) % max.toNat < (2 ^ 32 - t.toNat) % max.toNat then 1 else 0 := by
  have ht : t.toNat < max.toNat := ht
  have hv : v.toNat < max.toNat := hv
  rw [Nat.card_congr (acceptedEquiv t max v), ← Nat.count_modEq_card _ (by omega : 0 < max.toNat),
    Nat.count_eq_card_filter_range]
  exact Nat.subtype_card _ fun i => by rw [Finset.mem_filter, Finset.mem_range, add_mod_eq_iff ht hv]

/-- The left-over draw of DOC is the first, at the threshold. -/
theorem distance_mod_eq_zero_iff {t m v : Nat} (ht : t < m) (hv : v < m) : (v + (m - t)) % m = 0 ↔ v = t := by
  have h := add_mod_eq_iff (i := 0) ht hv
  rw [Nat.add_zero, Nat.mod_eq_of_lt ht] at h
  rw [eq_comm (a := v), h, Nat.ModEq, Nat.zero_mod, eq_comm]

theorem max_ne_zero_of_lt {max v : Word32} (hv : v < max) : max ≠ 0 := by
  rintro rfl
  exact BitVec.not_lt_zero hv

theorem card_accepted_ref {max v : Word32} (hv : v < max) :
    Nat.card { r : Word32 // threshold .ref max ≤ r ∧ r % max = v } = (2 ^ 32 - (threshold .ref max).toNat) / max.toNat := by
  have h0 := max_ne_zero_of_lt hv
  rw [card_accepted (threshold_lt .ref h0) hv, Nat.mod_eq_zero_of_dvd (dvd_acceptedCount_ref h0)]
  rfl

theorem card_accepted_doc {max v : Word32} (hv : v < max) (h2 : 2 ≤ max) :
    Nat.card { r : Word32 // threshold .doc max ≤ r ∧ r % max = v } =
      (2 ^ 32 - (threshold .doc max).toNat - 1) / max.toNat + if v = threshold .doc max then 1 else 0 := by
  have h0 := max_ne_zero_of_lt hv
  have h2 : 2 ≤ max.toNat := BitVec.le_def.1 h2
  have ht : threshold .doc max < max := threshold_lt .doc h0
  obtain ⟨k, hk⟩ := dvd_acceptedCount_doc_sub_one max
  have hn : 2 ^ 32 - (threshold .doc max).toNat = 1 + max.toNat * k := by omega
  have hmod : (1 + max.toNat * k) % max.toNat = 1 := by rw [Nat.add_mul_mod_self_left, Nat.mod_eq_of_lt h2]
  have hdiv : (1 + max.toNat * k) / max.toNat = k := by
    rw [Nat.add_mul_div_left _ _ (by omega), Nat.div_eq_of_lt h2, Nat.zero_add]
  rw [card_accepted ht hv, hk, hn, hmod, hdiv, Nat.mul_div_cancel_left k (by omega)]
  simp only [Nat.lt_one_iff, distance_mod_eq_zero_iff ht hv, BitVec.toNat_inj]

/-- Settles O22: the accepted draws are full cycles of the results, under DOC with one draw more. -/
theorem boundedBias : Obligations.BoundedBias := by
  unfold Obligations.BoundedBias
  intro max v hv
  have h0 := max_ne_zero_of_lt hv
  exact ⟨card_accepted_ref hv, dvd_acceptedCount_ref h0, card_accepted_doc hv⟩

/-! ### Termination (R143). -/

/-- Within a period a run of draws below `t` is no longer than `t · 2^32`: their outputs and the other bits of their pre-advance
states tell them apart (R127). -/
theorem rejectedRun_length_le {s : State} (h : s.inc.getLsbD 0 = true) {n t : Nat} (hn : n ≤ 2 ^ 64)
    (hbelow : ∀ i < n, (s.drawAt i).toNat < t) : n ≤ t * 2 ^ 32 := by
  have hinj : Function.Injective fun i : Fin n =>
      ((⟨(s.drawAt i).toNat, hbelow i i.isLt⟩ : Fin t), otherBits (s.lcgAfter i)) := by
    intro i j hij
    obtain ⟨hout, hother⟩ := Prod.mk.inj hij
    have hout : s.drawAt i = s.drawAt j := BitVec.eq_of_toNat_eq (Fin.mk.inj hout)
    exact Fin.ext (lcgAfter_injOn h (i.isLt.trans_le hn) (j.isLt.trans_le hn) (eq_of_output_eq hout hother))
  have hcard := Nat.card_le_card_of_injective _ hinj
  rwa [Nat.card_fin, Nat.card_prod, Nat.card_fin, natCard_otherBits] at hcard

/-- Before an accepted draw, or at it, there is a first one. -/
theorem exists_firstAccepted_le {s : State} {accept : Word32 → Prop} {k : Nat} (hk : accept (s.drawAt k)) :
    ∃ j ≤ k, FirstAccepted s accept j := by
  classical
  have hex : ∃ j, accept (s.drawAt j) := ⟨k, hk⟩
  exact ⟨Nat.find hex, Nat.find_le hk, Nat.find_spec hex, fun _ => Nat.find_min hex⟩

/-- Some draw is at or above a threshold `t` after at most `t · 2^32` below it. -/
theorem exists_firstAccepted_threshold {s : State} (h : s.inc.getLsbD 0 = true) (t : Word32) :
    ∃ j ≤ t.toNat * 2 ^ 32, FirstAccepted s (t ≤ ·) j := by
  have hperiod : t.toNat * 2 ^ 32 + 1 ≤ 2 ^ 64 := by omega
  have haccepted : ∃ k < t.toNat * 2 ^ 32 + 1, t ≤ s.drawAt k := by
    by_contra hnone
    push Not at hnone
    have hrun := rejectedRun_length_le h hperiod fun i hi => BitVec.lt_def.1 (BitVec.not_le.1 (hnone i hi))
    omega
  obtain ⟨k, hk, hle⟩ := haccepted
  obtain ⟨j, hj, hfirst⟩ := exists_firstAccepted_le (accept := (t ≤ ·)) hle
  exact ⟨j, hj.trans (Nat.le_of_lt_succ hk), hfirst⟩

/-- Settles O24: a longer run of rejected draws would repeat a state within a period. -/
theorem boundedRetryBound : Obligations.BoundedRetryBound := by
  unfold Obligations.BoundedRetryBound
  intro s max h _
  obtain ⟨j, hj, hfirst⟩ := exists_firstAccepted_threshold h (threshold s.cfg.thresholdForm max)
  exact ⟨j, hfirst, hj, by omega⟩

/-! ### The range (R144). -/

theorem BoundedGives.eq_zero {s : State} {v : Word32} {k : Nat} (h : BoundedGives s 0 v k) : v = 0 := by
  obtain ⟨-, hv, -⟩ | ⟨h0, -⟩ := h
  · exact hv
  · exact absurd rfl h0

theorem BoundedGives.lt {s : State} {max v : Word32} {k : Nat} (h : BoundedGives s max v k) (hmax : max ≠ 0) : v < max := by
  obtain ⟨h0, -⟩ | ⟨-, j, -, rfl, -⟩ := h
  · exact absurd h0 hmax
  · exact BitVec.umod_lt _ ((BitVec.pos_iff_ne_zero max).2 hmax)

/-- Settles O25: what the bounded draw answers is 0 for max = 0, and otherwise a remainder modulo max. -/
theorem boundedIsBelowMax : Obligations.BoundedIsBelowMax := by
  unfold Obligations.BoundedIsBelowMax
  intro max v s t h
  obtain ⟨k, cur, thr, hgives, -⟩ := boundedDraw_eq_some h
  exact ⟨fun h0 => (h0 ▸ hgives).eq_zero, hgives.lt⟩

/-! ### BOUNDED (R146). -/

/-- With INC odd the retries are not exhausted, so a command that ends with a bounded draw completes with its value. -/
theorem finishValue_boundedDraw_of_odd {s : State} (h : s.inc.getLsbD 0 = true) (max : Word32) (format : Word32 → Word64) :
    ∃ v k, BoundedGives s max v k ∧
      finishValue format (boundedDraw max (startCommand s)) = .next (valueState s k (format v)) := by
  obtain hvalue | ⟨hnone, -⟩ := finishValue_boundedDraw max s format
  · exact hvalue
  · obtain ⟨d, hd⟩ := boundedDraw_answers (max := max) (s := startCommand s) h
    exact nomatch hnone.symm.trans hd

theorem exec_bounded_of_seeded {s : State} (h : s.seeded = true) :
    exec .bounded s = finishValue zext32 (boundedDraw (low32 s.la0) (startCommand s)) := by
  unfold exec execBounded
  rw [requireSeeded_of_seeded _ h]
  rfl

/-- Settles O26: past the gate of R232, BOUNDED is a bounded draw below LA0[31:0] and a completion with its value. -/
theorem boundedCompletes : Obligations.BoundedCompletes := by
  unfold Obligations.BoundedCompletes
  refine ⟨(decode_eq_legal_iff _ _).2 (by decide), fun s => ⟨unseededEnds_of_isDrawing rfl s, fun hs hodd => ?_⟩⟩
  obtain ⟨v, k, hgives, hfinish⟩ := finishValue_boundedDraw_of_odd hodd (low32 s.la0) zext32
  exact ⟨_, v, k, (exec_bounded_of_seeded hs).trans hfinish, hgives, valueState_ends s k _⟩

end Sys2Proof.Machine
end

section
/-! PROOFS. The derived draws NEXT, BELOW and RANGE (43_adapter.md, R150 to R156): past the gate of R232 each is a value-producing
command over the raw or the bounded draw, and what remains is the arithmetic of signed 32-bit operands. -/

namespace Sys2Proof.Machine

/-! ### NEXT (R150). -/

theorem exec_next_of_seeded {s : State} (h : s.seeded = true) :
    exec .next s = .next (valueState s 1 (zext32 (output s.stateReg >>> 1))) := by
  unfold exec execNext
  rw [requireSeeded_of_seeded _ h, completeValue_draw, draw_fst, startCommand_stateReg]

@[simp] theorem zext32_toNat (v : Word32) : (zext32 v).toNat = v.toNat := by
  rw [zext32, BitVec.toNat_setWidth_of_le (by decide)]

theorem shiftRight_one_toNat (v : Word32) : (v >>> 1).toNat = v.toNat / 2 := by
  rw [BitVec.toNat_ushiftRight, Nat.shiftRight_eq_div_pow, Nat.pow_one]

theorem zext32_shiftRight_one (v : Word32) : zext32 (v >>> 1) = BitVec.ofNat 64 (v.toNat / 2) := by
  apply BitVec.eq_of_toNat_eq
  rw [zext32_toNat, shiftRight_one_toNat, BitVec.toNat_ofNat]
  omega

/-- Settles O27: past the gate of R232, NEXT is one draw and a completion with half its output. -/
theorem nextDraws : Obligations.NextDraws := by
  unfold Obligations.NextDraws
  refine ⟨(decode_eq_legal_iff _ _).2 (by decide), fun s => ⟨unseededEnds_of_isDrawing rfl s, fun h => ?_⟩⟩
  refine ⟨_, exec_next_of_seeded h, zext32_shiftRight_one _ ▸ valueState_ends s 1 _, ?_⟩
  have hhalf : (zext32 (output s.stateReg >>> 1)).toNat = (output s.stateReg).toNat / 2 := by
    rw [zext32_toNat, shiftRight_one_toNat]
  exact hhalf.trans_le (by omega)

/-! ### What an answer without error says. -/

/-- A drawing command that answers without error ran on a constructed engine (R232). -/
theorem seeded_of_noError {i : Instr} {s t : State} (hi : i.isDrawing = true) (h : exec i s = .next t) (he : t.err = .noError) :
    s.seeded = true := by
  by_contra hs
  rw [exec_of_unseeded hi (Bool.not_eq_true _ ▸ hs)] at h
  obtain rfl := Host.Outcome.next.inj h
  exact nomatch he

/-- A command whose end is a bounded draw answers with that draw's value in its format. -/
theorem boundedGives_of_finishValue {max : Word32} {s t : State} {format : Word32 → Word64}
    (h : finishValue format (boundedDraw max (startCommand s)) = .next t) :
    ∃ v k, BoundedGives s max v k ∧ t.result = format v := by
  obtain ⟨v, k, hgives, hfinish⟩ | ⟨-, hfault⟩ := finishValue_boundedDraw max s format
  · obtain rfl := Host.Outcome.next.inj (hfinish.symm.trans h)
    exact ⟨v, k, hgives, rfl⟩
  · exact nomatch hfault.symm.trans h

/-! ### BELOW (R152, R153). -/

theorem exec_below_of_neg {s : State} (hs : s.seeded = true) (h : sint32 (low32 s.la0) < 0) :
    exec .below s = .next (raiseError .invalidArgument .max (sext32 (low32 s.la0)) s) := by
  unfold exec execBelow
  rw [requireSeeded_of_seeded _ hs]
  exact if_pos h

theorem exec_below_of_nonneg {s : State} (hs : s.seeded = true) (h : 0 ≤ sint32 (low32 s.la0)) :
    exec .below s = finishValue zext32 (boundedDraw (low32 s.la0) (startCommand s)) := by
  unfold exec execBelow
  rw [requireSeeded_of_seeded _ hs]
  exact if_neg (not_lt.2 h)

/-- Settles O28: past the gate of R232, the sign of max tells the error from the bounded draw. -/
theorem belowCompletes : Obligations.BelowCompletes := by
  unfold Obligations.BelowCompletes
  refine ⟨(decode_eq_legal_iff _ _).2 (by decide), fun s => ⟨unseededEnds_of_isDrawing rfl s, fun hs hneg => ?_,
    fun hs hnonneg hodd => ?_⟩⟩
  · exact ⟨_, exec_below_of_neg hs hneg, raiseError_ends _ _ _ s⟩
  · obtain ⟨v, k, hgives, hfinish⟩ := finishValue_boundedDraw_of_odd hodd (low32 s.la0) zext32
    exact ⟨_, v, k, (exec_below_of_nonneg hs hnonneg).trans hfinish, hgives, valueState_ends s k _⟩

/-- BELOW's value without error is the bounded draw's. -/
theorem boundedGives_of_exec_below {s t : State} (h : exec .below s = .next t) (he : t.err = .noError)
    (hmax : 0 ≤ sint32 (low32 s.la0)) : ∃ v k, BoundedGives s (low32 s.la0) v k ∧ t.result = zext32 v :=
  boundedGives_of_finishValue ((exec_below_of_nonneg (seeded_of_noError rfl h he) hmax).symm.trans h)

/-- Zero extension to 64 bits leaves the sign bit 0. -/
theorem zext32_toInt (v : Word32) : (zext32 v).toInt = v.toNat := by
  rw [BitVec.toInt_eq_toNat_of_lt (by rw [zext32_toNat]; omega), zext32_toNat]

theorem sint32_eq_toNat {v : Word32} (h : 0 ≤ sint32 v) : sint32 v = v.toNat :=
  BitVec.toInt_eq_toNat_of_lt (BitVec.toInt_pos_iff.1 h)

/-- Settles O29: the bounded draw is below max, and a max that is not negative is the same number signed and unsigned. -/
theorem belowInRange : Obligations.BelowInRange := by
  unfold Obligations.BelowInRange
  intro s t h he
  constructor
  · intro hpos
    obtain ⟨v, k, hgives, hresult⟩ := boundedGives_of_exec_below h he hpos.le
    have hmax := sint32_eq_toNat hpos.le
    have hlt : v.toNat < (low32 s.la0).toNat := hgives.lt fun h0 => absurd hpos (h0 ▸ lt_irrefl 0)
    rw [hresult, zext32_toInt, hmax]
    omega
  · intro hzero
    obtain ⟨v, k, hgives, hresult⟩ := boundedGives_of_exec_below h he hzero.ge
    have h0 : low32 s.la0 = 0 := BitVec.toInt_inj.1 hzero
    have hv : v = 0 := BoundedGives.eq_zero (h0 ▸ hgives)
    rw [hresult, hv]
    rfl

/-! ### RANGE (R155, R156). -/

theorem exec_range_of_gt {s : State} (hs : s.seeded = true) (h : sint32 (low32 s.la1) < sint32 (low32 s.la0)) :
    exec .range s = .next (raiseError .invalidArgument .min (sext32 (low32 s.la0)) s) := by
  unfold exec execRange
  rw [requireSeeded_of_seeded _ hs]
  exact if_pos h

theorem exec_range_of_eq {s : State} (hs : s.seeded = true) (h : sint32 (low32 s.la0) = sint32 (low32 s.la1)) :
    exec .range s = .next (valueState s 0 (sext32 (low32 s.la0))) := by
  unfold exec execRange
  rw [requireSeeded_of_seeded _ hs]
  exact (if_neg h.not_gt).trans (if_pos h)

theorem exec_range_of_lt {s : State} (hs : s.seeded = true) (h : sint32 (low32 s.la0) < sint32 (low32 s.la1)) :
    exec .range s = finishValue (fun v => sext32 (v + low32 s.la0))
      (boundedDraw (low32 s.la1 - low32 s.la0) (startCommand s)) := by
  unfold exec execRange
  rw [requireSeeded_of_seeded _ hs]
  exact (if_neg h.not_gt).trans (if_neg h.ne)

/-- Settles O30: past the gate of R232, the order of min and max tells the three ends apart. -/
theorem rangeCompletes : Obligations.RangeCompletes := by
  unfold Obligations.RangeCompletes
  refine ⟨(decode_eq_legal_iff _ _).2 (by decide), fun s => ⟨unseededEnds_of_isDrawing rfl s, fun hs hgt => ?_,
    fun hs heq => ?_, fun hs hlt hodd => ?_⟩⟩
  · exact ⟨_, exec_range_of_gt hs hgt, raiseError_ends _ _ _ s⟩
  · exact ⟨_, exec_range_of_eq hs heq, valueState_ends s 0 _⟩
  · obtain ⟨v, k, hgives, hfinish⟩ := finishValue_boundedDraw_of_odd hodd (low32 s.la1 - low32 s.la0)
      fun v => sext32 (v + low32 s.la0)
    exact ⟨_, v, k, (exec_range_of_lt hs hlt).trans hfinish, hgives, valueState_ends s k _⟩

/-- The span of a signed range fits 32 unsigned bits. -/
theorem toNat_sub_of_sint32_lt {mn mx : Word32} (h : sint32 mn < sint32 mx) :
    ((mx - mn).toNat : Int) = sint32 mx - sint32 mn := by
  have hmn : sint32 mn = if 2 * mn.toNat < 2 ^ 32 then (mn.toNat : Int) else mn.toNat - 2 ^ 32 := BitVec.toInt_eq_toNat_cond mn
  have hmx : sint32 mx = if 2 * mx.toNat < 2 ^ 32 then (mx.toNat : Int) else mx.toNat - 2 ^ 32 := BitVec.toInt_eq_toNat_cond mx
  rw [BitVec.toNat_sub]
  omega

/-- A number below the span, added to min, stays below max and so does not wrap. -/
theorem sint32_add_of_lt_span {mn mx v : Word32} (h : (v.toNat : Int) < sint32 mx - sint32 mn) :
    sint32 (v + mn) = sint32 mn + v.toNat := by
  have hmn : -2 ^ 31 ≤ sint32 mn := BitVec.le_toInt mn
  have hmx : sint32 mx < 2 ^ 31 := BitVec.toInt_lt
  calc sint32 (v + mn) = (sint32 v + sint32 mn).bmod (2 ^ 32) := BitVec.toInt_add v mn
    _ = (v.toNat + sint32 mn).bmod (2 ^ 32) := by rw [sint32, BitVec.toInt_eq_toNat_bmod, Int.bmod_add_bmod]
    _ = sint32 mn + v.toNat := by rw [Int.add_comm, Int.bmod_eq_of_le] <;> omega

@[simp] theorem sext32_toInt (v : Word32) : (sext32 v).toInt = sint32 v :=
  BitVec.toInt_signExtend_of_le (by decide)

/-- Settles O31: the bounded draw is below the span (R144), so min plus it neither wraps nor reaches max. -/
theorem rangeIsExact : Obligations.RangeIsExact := by
  unfold Obligations.RangeIsExact
  intro s t hlt
  have hspan := toNat_sub_of_sint32_lt hlt
  refine ⟨hspan, fun v hv => sint32_add_of_lt_span hv, fun h he => ?_⟩
  have hrange := (exec_range_of_lt (seeded_of_noError rfl h he) hlt).symm.trans h
  obtain ⟨v, k, hgives, hresult⟩ := boundedGives_of_finishValue hrange
  have hne : low32 s.la1 - low32 s.la0 ≠ 0 := by
    intro h0
    have hzero : (low32 s.la1 - low32 s.la0).toNat = 0 := congrArg BitVec.toNat h0
    omega
  have hv : v.toNat < (low32 s.la1 - low32 s.la0).toNat := hgives.lt hne
  have hadd : sint32 (v + low32 s.la0) = sint32 (low32 s.la0) + v.toNat := sint32_add_of_lt_span (mx := low32 s.la1) (by omega)
  rw [hresult, sext32_toInt, hadd]
  omega

end Sys2Proof.Machine
end

section
/-! PROOFS. SAMPLE (43_adapter.md): the constant C (R171), the value of the rounded product (R172), its range (R173), and the bound on
the retries (R174). -/

namespace Sys2Proof.Machine

/-! ### Nearest values. -/

/-- In units of 2^-k every binary64 value is an integer or below 2^52, so a value other than the integer q > 2^52 is more than half a
unit from what is less than half a unit from q. -/
theorem half_lt_abs_sub_of_grid {c : Word64} {k : ℕ} {q : ℤ} {y : ℚ} (hk : k ≤ 1074) (hq : 2 ^ 52 < q)
    (hy : |(q : ℚ) - y| < 1 / 2) (hne : binary64Value c * 2 ^ (k : ℤ) ≠ q) : 1 / 2 < |binary64Value c * 2 ^ (k : ℤ) - y| := by
  obtain ⟨hlo, hhi⟩ := abs_lt.1 hy
  obtain ⟨m, hm⟩ | hsmall := binary64_grid c 0 hk
  · rw [pow_zero, mul_one] at hm
    rw [hm] at hne ⊢
    obtain hlt | hgt := lt_or_gt_of_ne (Int.cast_injective.ne_iff.1 hne)
    · have hstep : (m : ℚ) + 1 ≤ q := by exact_mod_cast Int.add_one_le_of_lt hlt
      exact lt_abs.2 (.inr (by linarith))
    · have hstep : (q : ℚ) + 1 ≤ m := by exact_mod_cast Int.add_one_le_of_lt hgt
      exact lt_abs.2 (.inl (by linarith))
  · have hstep : (2 : ℚ) ^ 52 + 1 ≤ q := by exact_mod_cast Int.add_one_le_of_lt hq
    have hbound : binary64Value c * 2 ^ (k : ℤ) < 2 ^ 52 := (abs_lt.1 hsmall).2
    exact lt_abs.2 (.inr (by linarith))

/-- The pattern of an integer above 2^52 in units of 2^-k is the nearest to every number less than half a unit away, and no other
value is as near. -/
theorem nearestEven_of_near {b : Word64} {x : ℚ} {k : ℕ} {q : ℤ} (hk : k ≤ 1074) (hfinite : Binary64Finite b)
    (hvalue : binary64Value b * 2 ^ (k : ℤ) = q) (hq : 2 ^ 52 < q) (hnear : |(q : ℚ) - x * 2 ^ (k : ℤ)| < 1 / 2) :
    NearestEven x b := by
  have hunit : (0 : ℚ) < 2 ^ (k : ℤ) := by positivity
  have hscale : ∀ c : Word64, |binary64Value c * 2 ^ (k : ℤ) - x * 2 ^ (k : ℤ)| = |binary64Value c - x| * 2 ^ (k : ℤ) := by
    intro c
    rw [← sub_mul, abs_mul, abs_of_pos hunit]
  have hfar : ∀ c : Word64, binary64Value c ≠ binary64Value b → |binary64Value b - x| < |binary64Value c - x| := fun c hne => by
    have hne' : binary64Value c * 2 ^ (k : ℤ) ≠ q := fun h => hne (mul_right_cancel₀ hunit.ne' (h.trans hvalue.symm))
    have hlt := (hvalue ▸ hnear).trans (half_lt_abs_sub_of_grid hk hq hnear hne')
    rw [hscale, hscale] at hlt
    exact lt_of_mul_lt_mul_right hlt hunit.le
  refine ⟨hfinite, fun c _ => ⟨?_, fun heq hne => absurd heq (hfar c hne).ne⟩⟩
  by_cases hsame : binary64Value c = binary64Value b
  · rw [hsame]
  · exact (hfar c hsame).le

/-! ### The constant C (R171). -/

/-- C's pattern is R172's for the product 1 × C, which 53 bits hold. -/
theorem encodeBinary64_C : encodeBinary64 (2 ^ 32 + 1) 0 = 0x3DF0000000100000 := by decide

theorem binary64Value_C : binary64Value 0x3DF0000000100000 = 2 ^ (-32 : ℤ) + 2 ^ (-64 : ℤ) := by
  obtain ⟨hvalue, -, -⟩ := binary64Value_encode (q := 2 ^ 32 + 1) (s := 0) (by norm_num) (by norm_num) (by norm_num)
  rw [← encodeBinary64_C, hvalue]
  norm_num

/-- 1 / U32_MAX in C's last places is 2^52 + 2^20 + 2^-12 + 2^-44 + ..., and C is the integer part of that. -/
theorem nearestEven_C : NearestEven (1 / 4294967295) 0x3DF0000000100000 := by
  obtain ⟨-, hfinite, -⟩ := binary64Value_encode (q := 2 ^ 32 + 1) (s := 0) (by norm_num) (by norm_num) (by norm_num)
  rw [encodeBinary64_C] at hfinite
  refine nearestEven_of_near (k := 84) (q := 2 ^ 52 + 2 ^ 20) (by norm_num) hfinite ?_ (by norm_num) ?_
  · rw [binary64Value_C]
    norm_num
  · norm_num [abs_lt]

/-- The quotient r / U32_MAX for r = 0x00FC4F14, rounded: one unit in the last place above the product. -/
theorem encodeBinary64_quotient : encodeBinary64 0x1F89E2801F89E3 3 = 0x3F6F89E2801F89E3 := by decide

theorem nearestEven_quotient : NearestEven (0x00FC4F14 / 4294967295) 0x3F6F89E2801F89E3 := by
  obtain ⟨hvalue, hfinite, -⟩ :=
    binary64Value_encode (q := 0x1F89E2801F89E3) (s := 3) (by norm_num) (by norm_num) (by norm_num)
  rw [encodeBinary64_quotient] at hvalue hfinite
  refine nearestEven_of_near (k := 61) (q := 0x1F89E2801F89E3) (by norm_num) hfinite ?_ (by norm_num) ?_
  · rw [hvalue]
    norm_num
  · norm_num [abs_lt]

/-- Settles O35: both patterns are integers of 53 bits in units of their last places, less than half a unit from the quotients; the
product at r = 0x00FC4F14 is V-M6. -/
theorem sampleConstant : Obligations.SampleConstant := by
  unfold Obligations.SampleConstant
  exact ⟨binary64Value_C, nearestEven_C, by decide, nearestEven_quotient⟩

/-! ### The rounded product (R172). -/

/-- The quotient before the carry: `p` without its `s` lowest bits, rounded to the nearest, ties to even. -/
def roundedQuotient (p s : ℕ) : ℕ :=
  if p % 2 ^ s > 2 ^ (s - 1) ∨ (p % 2 ^ s = 2 ^ (s - 1) ∧ p / 2 ^ s % 2 = 1) then p / 2 ^ s + 1 else p / 2 ^ s

theorem roundTo53_of_le {p : ℕ} (h : bitLength p ≤ 53) : roundTo53 p = (p, 0) := if_pos h

theorem roundTo53_of_gt {p s : ℕ} (h : bitLength p = 53 + s) (hs : 0 < s) :
    roundTo53 p = if roundedQuotient p s = 2 ^ 53 then (2 ^ 52, s + 1) else (roundedQuotient p s, s) := by
  obtain rfl : bitLength p - 53 = s := by omega
  exact if_neg (by omega)

theorem div_le_roundedQuotient (p s : ℕ) : p / 2 ^ s ≤ roundedQuotient p s := by
  unfold roundedQuotient
  split <;> omega

/-- Rounding does not pass a multiple of the last place. -/
theorem roundedQuotient_le {p s m : ℕ} (h : p ≤ m * 2 ^ s) : roundedQuotient p s ≤ m := by
  have hdiv := Nat.div_add_mod p (2 ^ s)
  have hhalf : 0 < 2 ^ (s - 1) := by positivity
  unfold roundedQuotient
  split
  · have hlt : 2 ^ s * (p / 2 ^ s) < 2 ^ s * m := by rw [Nat.mul_comm _ m]; omega
    exact Nat.lt_of_mul_lt_mul_left hlt
  · exact Nat.div_le_of_le_mul (h.trans_eq (Nat.mul_comm m _))

/-- The same for a multiple of a last place that is larger still. -/
theorem roundedQuotient_mul_le {p d n m : ℕ} (hd : d ≤ n) (h : p ≤ m * 2 ^ n) : roundedQuotient p d * 2 ^ d ≤ m * 2 ^ n := by
  have hsplit : m * 2 ^ n = m * 2 ^ (n - d) * 2 ^ d := by rw [mul_assoc, ← pow_add, Nat.sub_add_cancel hd]
  rw [hsplit] at h ⊢
  exact Nat.mul_le_mul_right _ (roundedQuotient_le h)

/-- A quotient of 53 bits rounds to one of 53 bits, or to 2^53. -/
theorem roundedQuotient_bounds {p d : ℕ} (hlow : 2 ^ (52 + d) ≤ p) (hhigh : p < 2 ^ (53 + d)) :
    2 ^ 52 ≤ roundedQuotient p d ∧ roundedQuotient p d ≤ 2 ^ 53 := by
  rw [pow_add] at hlow hhigh
  have hquotient : 2 ^ 52 ≤ p / 2 ^ d := (Nat.le_div_iff_mul_le (by positivity)).2 hlow
  exact ⟨hquotient.trans (div_le_roundedQuotient p d), roundedQuotient_le hhigh.le⟩

/-- The rounded value has at most 53 bits, its exponent is at most one above the bits it may drop, and it stays at or below every
multiple of the last place that the product is at or below. -/
theorem roundTo53_spec {p n q s : ℕ} (hround : roundTo53 p = (q, s)) (h0 : 0 < p) (hp : p < 2 ^ (53 + n)) :
    0 < q ∧ q < 2 ^ 53 ∧ s ≤ n + 1 ∧ ∀ m, p ≤ m * 2 ^ n → q * 2 ^ s ≤ m * 2 ^ n := by
  obtain ⟨hlow, hhigh, -⟩ := bitLength_bounds h0
  by_cases hl : bitLength p ≤ 53
  · obtain ⟨rfl, rfl⟩ := Prod.mk.inj ((roundTo53_of_le hl).symm.trans hround)
    refine ⟨h0, hhigh.trans_le (Nat.pow_le_pow_right two_pos hl), Nat.zero_le _, fun m hm => ?_⟩
    rwa [pow_zero, mul_one]
  · obtain ⟨d, hd⟩ : ∃ d, bitLength p = 53 + d := ⟨bitLength p - 53, by omega⟩
    rw [hd] at hhigh
    rw [hd, Nat.add_right_comm 52 1 d, Nat.add_sub_cancel] at hlow
    have hexp : 52 + d < 53 + n := (Nat.pow_lt_pow_iff_right (a := 2) (by norm_num)).1 (hlow.trans_lt hp)
    have hdn : d ≤ n := by omega
    obtain ⟨hge, hle⟩ := roundedQuotient_bounds hlow hhigh
    rw [roundTo53_of_gt hd (by omega)] at hround
    split at hround
    next hcarry =>
      obtain ⟨rfl, rfl⟩ := Prod.mk.inj hround
      refine ⟨by norm_num, by norm_num, by omega, fun m hm => ?_⟩
      calc 2 ^ 52 * 2 ^ (d + 1) = roundedQuotient p d * 2 ^ d := by rw [hcarry, pow_succ']; ring
        _ ≤ m * 2 ^ n := roundedQuotient_mul_le hdn hm
    next hfits =>
      obtain ⟨rfl, rfl⟩ := Prod.mk.inj hround
      exact ⟨by omega, by omega, by omega, fun m => roundedQuotient_mul_le hdn⟩

/-! ### SAMPLE's range (R173). -/

/-- r × C in units of 2^-64 (R172). -/
def sampleProduct (r : Word32) : ℕ := r.toNat * (2 ^ 32 + 1)

theorem sampleProduct_pos {r : Word32} (h : r ≠ 0) : 0 < sampleProduct r :=
  Nat.mul_pos ((BitVec.pos_iff_ne_zero r).2 h) (by norm_num)

theorem sampleProduct_lt (r : Word32) : sampleProduct r < 2 ^ (53 + 11) := by
  unfold sampleProduct
  omega

theorem sampleBits_eq_encode {r : Word32} (h : r ≠ 0) {q s : ℕ} (hround : roundTo53 (sampleProduct r) = (q, s)) :
    sampleBits r = encodeBinary64 q s := by
  have hbits : sampleBits r = encodeBinary64 (roundTo53 (sampleProduct r)).1 (roundTo53 (sampleProduct r)).2 := if_neg h
  rw [hbits, hround]

/-- SAMPLE's value is the rounded product. -/
theorem binary64Value_sampleBits {r : Word32} (h : r ≠ 0) {q s : ℕ} (hround : roundTo53 (sampleProduct r) = (q, s)) :
    binary64Value (sampleBits r) = ((q * 2 ^ s : ℕ) : ℚ) / 2 ^ 64 := by
  obtain ⟨hpos, hlt, hs, -⟩ := roundTo53_spec hround (sampleProduct_pos h) (sampleProduct_lt r)
  obtain ⟨hvalue, -, -⟩ := binary64Value_encode hpos hlt hs
  rw [sampleBits_eq_encode h hround, hvalue, zpow_sub₀ (by norm_num), zpow_natCast]
  push_cast
  ring

theorem binary64Value_sampleBits_zero : binary64Value (sampleBits 0) = 0 := by
  rw [show sampleBits 0 = 0 from if_pos rfl]
  simp [binary64Value]

/-- 2^64 - 2^32 is a multiple of the last place of every product, and the product of an accepted draw is below it. -/
theorem binary64Value_sampleBits_mem {r : Word32} (h : r ≠ 0xFFFFFFFF) :
    0 ≤ binary64Value (sampleBits r) ∧ binary64Value (sampleBits r) ≤ 1 - 2 ^ (-32 : ℤ) := by
  by_cases h0 : r = 0
  · rw [h0, binary64Value_sampleBits_zero]
    norm_num
  · obtain ⟨⟨q, s⟩, hround⟩ : ∃ qs, roundTo53 (sampleProduct r) = qs := ⟨_, rfl⟩
    obtain ⟨-, -, -, hbelow⟩ := roundTo53_spec hround (sampleProduct_pos h0) (sampleProduct_lt r)
    have hr : r.toNat ≤ 2 ^ 32 - 2 := by
      have hne := BitVec.toNat_ne_iff_ne.2 h
      have hmax : (0xFFFFFFFF : Word32).toNat = 2 ^ 32 - 1 := rfl
      omega
    have hle : q * 2 ^ s ≤ (2 ^ 53 - 2 ^ 21) * 2 ^ 11 := hbelow _ (by unfold sampleProduct; omega)
    have hcast : ((q * 2 ^ s : ℕ) : ℚ) ≤ ((2 ^ 53 - 2 ^ 21) * 2 ^ 11 : ℕ) := Nat.cast_le.2 hle
    rw [binary64Value_sampleBits h0 hround]
    refine ⟨by positivity, ?_⟩
    calc ((q * 2 ^ s : ℕ) : ℚ) / 2 ^ 64 ≤ ((2 ^ 53 - 2 ^ 21) * 2 ^ 11 : ℕ) / 2 ^ 64 := by gcongr
      _ = 1 - 2 ^ (-32 : ℤ) := by norm_num

/-- Settles O37: the rounding stays at or below 1 - 2^-32, which the largest accepted draw's product rounds to; U32_MAX's product,
1 - 2^-64, rounds up to 1. -/
theorem sampleIsBelowOne : Obligations.SampleIsBelowOne := by
  unfold Obligations.SampleIsBelowOne
  have hlargest : roundTo53 (sampleProduct 0xFFFFFFFE) = (2 ^ 53 - 2 ^ 21, 11) := by decide
  have hmax : roundTo53 (sampleProduct 0xFFFFFFFF) = (2 ^ 52, 12) := by decide
  refine ⟨fun r => binary64Value_sampleBits_mem, ?_, ?_⟩
  · rw [binary64Value_sampleBits (by decide) hlargest]
    norm_num
  · rw [binary64Value_sampleBits (by decide) hmax]
    norm_num

/-! ### Termination (R174). -/

/-- Within a period one output comes at most 2^32 times: the other bits of the pre-advance states tell its draws apart (R127). -/
theorem equalRun_length_le {s : State} (h : s.inc.getLsbD 0 = true) {n : ℕ} {out : Word32} (hn : n ≤ 2 ^ 64)
    (hequal : ∀ i < n, s.drawAt i = out) : n ≤ 2 ^ 32 := by
  have hinj : Function.Injective fun i : Fin n => otherBits (s.lcgAfter i) := fun i j hij =>
    have hsub := (otherBits_bijective_of_drawAt h out).injective
      (a₁ := ⟨i, i.isLt.trans_le hn, hequal i i.isLt⟩) (a₂ := ⟨j, j.isLt.trans_le hn, hequal j j.isLt⟩) hij
    Fin.ext (Subtype.mk.inj hsub)
  have hcard := Nat.card_le_card_of_injective _ hinj
  rwa [Nat.card_fin, natCard_otherBits] at hcard

/-- Settles O38: a longer run of rejected draws would be more occurrences of U32_MAX than a period holds. -/
theorem sampleRetryBound : Obligations.SampleRetryBound := by
  unfold Obligations.SampleRetryBound
  intro s h
  have haccepted : ∃ k < 2 ^ 32 + 1, s.drawAt k ≠ 0xFFFFFFFF := by
    by_contra hnone
    push Not at hnone
    have hrun := equalRun_length_le h (by norm_num) hnone
    omega
  obtain ⟨k, hk, hne⟩ := haccepted
  obtain ⟨j, hj, hfirst⟩ := exists_firstAccepted_le (accept := (· ≠ 0xFFFFFFFF)) hne
  exact ⟨j, hfirst, hj.trans (Nat.le_of_lt_succ hk)⟩

end Sys2Proof.Machine
end

section
/-! PROOFS. Errors (60_exceptions.md): which error a command word reports (R203), and that a command that ends in one has changed
nothing but the report (R202). -/

namespace Sys2Proof.Machine

/-! ### The conditions of R200 and the ends they lead to. -/

theorem exec_fill_absent_of_seeded {s : State} (h : s.seeded = true) :
    exec (.fill false) s = .next (raiseError .nullBuffer .buffer 0 s) := by
  show execFill false s = _
  unfold execFill
  rw [requireSeeded_of_seeded _ h]
  rfl

/-- A legal command that meets the condition of an error ends in that error. -/
theorem CommandError.exec_eq {s : State} {i : Instr} {c : ErrCode} {p : Param} {v : Word64} (h : CommandError s i c p v) :
    exec i s = .next (raiseError c p v s) := by
  cases h with
  | unseeded hi hs => exact exec_of_unseeded hi hs
  | belowMax hs hneg => exact exec_below_of_neg hs hneg
  | rangeMin hs hgt => exact exec_range_of_gt hs hgt
  | fillBuffer hs => exact exec_fill_absent_of_seeded hs

theorem CommandError.errorEnds {s : State} {i : Instr} {c : ErrCode} {p : Param} {v : Word64} (h : CommandError s i c p v)
    (hd : decode s.lcmd = .legal i) : ∃ t, runCommand s = .next t ∧ ErrorEnds s t c p v :=
  ⟨_, (runCommand_legal hd).trans h.exec_eq, raiseError_ends c p v s⟩

/-- No other end of a command has BUSY = 0 and an error: without an error condition it completes with ERR = 0, or it is a FILL
that stays BUSY (R52). -/
theorem ExecOutcome.commandError {s t : State} {i : Instr} (h : ExecOutcome s i (.next t)) (hbusy : s.busy = true)
    (hdone : t.busy = false) (herr : t.err ≠ .noError) : ∃ c p v, CommandError s i c p v ∧ t = raiseError c p v s := by
  cases h with
  | constructed | cleared | value | filled => exact absurd rfl herr
  | failed c p v _ hcond => exact ⟨c, p, v, hcond, rfl⟩
  | stuck => exact nomatch hbusy.symm.trans hdone

/-- A BUSY command that completes with an error has an illegal word, or is legal and meets the condition of its error (R203). -/
theorem runCommand_error_cases {s t : State} (hbusy : s.busy = true) (h : runCommand s = .next t) (hdone : t.busy = false)
    (herr : t.err ≠ .noError) :
    (∃ why, decode s.lcmd = .illegal why ∧ t = raiseError .illegalCmd .noParam 0 s) ∨
      ∃ i c p v, decode s.lcmd = .legal i ∧ CommandError s i c p v ∧ t = raiseError c p v s := by
  obtain ⟨why, hd, hrun⟩ | ⟨i, hd, -, hout⟩ := runCommand_cases s
  · exact .inl ⟨why, hd, Host.Outcome.next.inj (h.symm.trans hrun)⟩
  · obtain ⟨c, p, v, hcond, ht⟩ := (h ▸ hout).commandError hbusy hdone herr
    exact .inr ⟨i, c, p, v, hd, hcond, ht⟩

/-! ### The order of the checks (R203). -/

/-- Settles O51: each condition leads to its error, and a command that completes with an error met one of them. -/
theorem errorPriority : Obligations.ErrorPriority := by
  unfold Obligations.ErrorPriority
  refine fun s => ⟨?illegal, fun i hd hi hs => CommandError.errorEnds (.unseeded hi hs) hd,
    fun hd hs hneg => CommandError.errorEnds (.belowMax hs hneg) hd,
    fun hd hs hgt => CommandError.errorEnds (.rangeMin hs hgt) hd,
    fun hd hs => CommandError.errorEnds (.fillBuffer hs) hd, ?converse⟩
  case illegal =>
    rintro ⟨why, hd⟩
    exact ⟨_, runCommand_illegal hd, raiseError_ends _ _ _ s⟩
  case converse =>
    intro t hbusy h hdone herr
    obtain ⟨why, hd, -⟩ | ⟨i, c, p, v, hd, hcond, -⟩ := runCommand_error_cases hbusy h hdone herr
    · exact .inl ⟨why, hd⟩
    · cases hcond with
      | unseeded hi hs => exact .inr (.inl ⟨i, hd, hi, hs⟩)
      | belowMax _ hneg => exact .inr (.inr (.inl ⟨hd, hneg⟩))
      | rangeMin _ hgt => exact .inr (.inr (.inr (.inl ⟨hd, hgt⟩)))
      | fillBuffer _ => exact .inr (.inr (.inr (.inr hd)))

/-! ### An error changes nothing (R202). -/

/-- Settles O52: a command that completes with an error ends in `raiseError` from the state it began in. -/
theorem errorsChangeNothing : Obligations.ErrorsChangeNothing := by
  unfold Obligations.ErrorsChangeNothing
  intro s t hbusy h hdone herr
  obtain ⟨-, -, rfl⟩ | ⟨-, c, p, v, -, -, rfl⟩ := runCommand_error_cases hbusy h hdone herr
  · exact raiseError_ends .illegalCmd .noParam 0 s
  · exact raiseError_ends c p v s

end Sys2Proof.Machine
end

section
/-! PROOFS. The encoding (30_encoding.md, R70 to R78): decoder and encoder are inverse on the legal words, and the assembler's
signed literals reach the command. -/

namespace Sys2Proof

/-- Settles O3: a legal word has the fields of its command and no others. -/
theorem legalWordIsTheEncoding : Obligations.LegalWordIsTheEncoding := by
  unfold Obligations.LegalWordIsTheEncoding
  exact decode_eq_legal_iff

/-- Settles O2: a command's own encoding is the word that decodes to it. -/
theorem decodeOfEncode : Obligations.DecodeOfEncode := by
  unfold Obligations.DecodeOfEncode
  exact fun i _ => (decode_eq_legal_iff (encode i) i).2 rfl

/-- Settles O1: the decoder evaluated on the seventeen words. -/
theorem opcodeWordsDecode : Obligations.OpcodeWordsDecode := by
  unfold Obligations.OpcodeWordsDecode
  decide

end Sys2Proof

namespace Sys2Proof.Machine

/-! ### Signed literals (R77, R78). -/

/-- The low half of a literal's two's complement, read as signed, is the literal. -/
theorem sint32_low32_ofInt {m : Int} (h : isI32 m = true) : sint32 (low32 (BitVec.ofInt 64 m)) = m := by
  obtain ⟨hlow, hhigh⟩ : -2 ^ 31 ≤ m ∧ m < 2 ^ 31 := by simpa [isI32] using h
  rw [sint32, low32, BitVec.toInt_setWidth, BitVec.toNat_ofInt]
  simp only [Int.bmod]
  omega

theorem portWrite_cmd_idle {s : State} (h : s.busy = false) (data : Word64) : portWrite .cmd data s = issue (low32 data) s := by
  simp [portWrite, h]

/-- A run whose next event is the assembler's `wr` goes on from the register's write. -/
theorem run_wr {s : State} {rest : List Event} {r : PortReg} {m : Int} {k : Nat} {out : Result}
    (h : s.events = HostOp.event s.cfg.portBase (.wr r m) :: rest)
    (hout : Sys2Proof.core.run k (portWrite r (BitVec.ofInt 64 m) { s with events := rest }) = out) :
    Sys2Proof.core.run (k + 1) s = out :=
  (core_run_next (step_wr r m h) k).trans hout

/-- The write of CMD that ends an expansion's operands: the block is BUSY with the word and with what ARG0 and ARG1 hold. -/
theorem run_cmd_idle {s : State} {word : Int} {rest : List Event}
    (h : s.events = HostOp.event s.cfg.portBase (.cmd word) :: rest) (hidle : s.busy = false) :
    Sys2Proof.core.run 1 s = .next (issue (low32 (BitVec.ofInt 64 word)) { s with events := rest }) :=
  run_wr (k := 0) h (congrArg Host.Outcome.next (portWrite_cmd_idle (s := { s with events := rest }) hidle _))

theorem assemble_eq_some {p : Pseudo} {ops : List HostOp} (h : assemble p = some ops) : p.inRange = true ∧ ops = p.expansion := by
  unfold assemble at h
  split at h
  · next hrange => exact ⟨hrange, (Option.some.inj h).symm⟩
  · cases h

/-- Issuing `below m` takes two steps, and the operand latched is m. -/
theorem run_below {m : Int} {s : State} {rest : List Event} (hm : isI32 m = true) (hidle : s.busy = false)
    (h : s.events = (Pseudo.below m).expansion.map (HostOp.event s.cfg.portBase) ++ rest) :
    ∃ u, Sys2Proof.core.run 2 s = .next u ∧ u.busy = true ∧ decode u.lcmd = .legal .below ∧ sint32 (operand0 u) = m := by
  have hrun := run_wr h (run_cmd_idle rfl hidle)
  refine ⟨_, hrun, rfl, ?_, ?_⟩
  · exact (decode_eq_legal_iff _ _).2 (show low32 (BitVec.ofInt 64 0x13) = encode .below by decide)
  · rw [operand0_issue]
    exact sint32_low32_ofInt hm

/-- Issuing `range a, b` takes three steps, and the operands latched are a and b. -/
theorem run_range {a b : Int} {s : State} {rest : List Event} (ha : isI32 a = true) (hb : isI32 b = true) (hidle : s.busy = false)
    (h : s.events = (Pseudo.range a b).expansion.map (HostOp.event s.cfg.portBase) ++ rest) :
    ∃ u, Sys2Proof.core.run 3 s = .next u ∧ u.busy = true ∧ decode u.lcmd = .legal .range ∧
      sint32 (operand0 u) = a ∧ sint32 (operand1 u) = b := by
  have hrun := run_wr h (run_wr rfl (run_cmd_idle rfl hidle))
  refine ⟨_, hrun, rfl, ?_, ?_, ?_⟩
  · exact (decode_eq_legal_iff _ _).2 (show low32 (BitVec.ofInt 64 0x14) = encode .range by decide)
  · rw [operand0_issue]
    exact sint32_low32_ofInt ha
  · rw [operand1_issue]
    exact sint32_low32_ofInt hb

/-- Settles O6: each write of an expansion reaches its register, and the issue latches the registers. -/
theorem signedLiteralReachesTheCommand : Obligations.SignedLiteralReachesTheCommand := by
  unfold Obligations.SignedLiteralReachesTheCommand
  refine ⟨fun m s rest w hm => ⟨fun h => ⟨_, step_wr .arg0 m h, ?_⟩, fun h => ⟨_, step_wr .arg1 m h, ?_⟩⟩, ?below, ?range⟩
  · rw [operand0_issue]
    exact sint32_low32_ofInt hm
  · rw [operand1_issue]
    exact sint32_low32_ofInt hm
  case below =>
    intro m ops s rest hops hidle h
    obtain ⟨hm, rfl⟩ := assemble_eq_some hops
    exact run_below hm hidle h
  case range =>
    intro a b ops s rest hops hidle h
    obtain ⟨hrange, rfl⟩ := assemble_eq_some hops
    obtain ⟨ha, hb⟩ := Bool.and_eq_true_iff.1 hrange
    exact run_range ha hb hidle h

end Sys2Proof.Machine
end

section
/-! PROOFS. SEEDT (R104), the first draw after a construction (R122, R130), and the thresholds at the corners of R145. -/

namespace Sys2Proof.Machine

/-- Settles O10: SEEDT constructs from the latched TIME and the parameter. -/
theorem seedtConstructs : Obligations.SeedtConstructs := by
  unfold Obligations.SeedtConstructs
  exact ⟨(decode_eq_legal_iff _ _).2 (by decide), fun s => ⟨_, exec_seedt s, constructedState_ends _ _ s⟩⟩

/-- From one STATE the advances under two values of INC differ as those do (R122). -/
theorem advance_sub_advance (a b old : Word64) : advance a old - advance b old = a - b :=
  add_sub_add_left_eq_sub a b (mult * old)

/-- Settles O17: the output reads STATE alone, and STATE advances by a multiple of the seed plus INC. -/
theorem firstDrawDependsOnSeedAlone : Obligations.FirstDrawDependsOnSeedAlone := by
  unfold Obligations.FirstDrawDependsOnSeedAlone
  exact fun seed stream₁ stream₂ s₁ s₂ => ⟨rfl, advance_sub_advance _ _ seed⟩

/-! ### Thresholds of powers of two and of large bounds (R145). -/

theorem twoPow_toNat {k : Nat} (hk : k ≤ 31) : (BitVec.twoPow 32 k).toNat = 2 ^ k :=
  (BitVec.toNat_twoPow 32 k).trans (Nat.mod_eq_of_lt (Nat.pow_lt_pow_right (by norm_num) (by omega)))

/-- A power of two divides 2^32, and so 2^32 minus itself. -/
theorem threshold_ref_twoPow {k : Nat} (hk : k ≤ 31) : threshold .ref (BitVec.twoPow 32 k) = 0 := by
  have hne : BitVec.twoPow 32 k ≠ 0 := by
    rw [← BitVec.toNat_ne_iff_ne, twoPow_toNat hk]
    exact (Nat.two_pow_pos k).ne'
  have hdvd : 2 ^ k ∣ 2 ^ 32 - 2 ^ k := Nat.dvd_sub (pow_dvd_pow 2 (by omega)) dvd_rfl
  apply BitVec.eq_of_toNat_eq
  rw [threshold_ref_toNat hne, twoPow_toNat hk, Nat.mod_eq_zero_of_dvd hdvd]
  rfl

/-- 2^32 - 1 - 2^k is one less than a multiple of 2^k. -/
theorem threshold_doc_twoPow {k : Nat} (hk : k ≤ 31) : threshold .doc (BitVec.twoPow 32 k) = BitVec.twoPow 32 k - 1 := by
  obtain ⟨m, hm⟩ : ∃ m, 2 ^ 32 = 2 ^ k * (m + 2) := by
    refine ⟨2 ^ (32 - k) - 2, ?_⟩
    have htwo : 2 ≤ 2 ^ (32 - k) := le_self_pow₀ one_le_two (by omega)
    rw [Nat.sub_add_cancel htwo, ← pow_add]
    congr 1
    omega
  have hpos := Nat.two_pow_pos k
  have hone : (1 : Word32) ≤ BitVec.twoPow 32 k := by
    rw [BitVec.le_def, twoPow_toNat hk]
    exact hpos
  have hdividend : 2 ^ 32 - 1 - 2 ^ k = 2 ^ k - 1 + 2 ^ k * m := by rw [hm, Nat.mul_add]; omega
  apply BitVec.eq_of_toNat_eq
  rw [threshold_doc_toNat, BitVec.toNat_sub_of_le hone, twoPow_toNat hk, hdividend, Nat.add_mul_mod_self_left]
  exact Nat.mod_eq_of_lt (Nat.sub_lt hpos one_pos)

/-- Above 2^31 the dividend U32_MAX - max is below max. -/
theorem threshold_doc_of_large {max : Word32} (h : 0x80000001 ≤ max) : threshold .doc max = 0xFFFFFFFF - max := by
  have hlarge : 2 ^ 31 + 1 ≤ max.toNat := h
  have hle : max ≤ 0xFFFFFFFF := Nat.le_sub_one_of_lt max.isLt
  apply BitVec.eq_of_toNat_eq
  rw [threshold_doc_toNat, BitVec.toNat_sub_of_le hle]
  exact Nat.mod_eq_of_lt (by omega)

/-- Settles O23: the remainders of R141's dividends at those bounds. -/
theorem thresholdCorners : Obligations.ThresholdCorners := by
  unfold Obligations.ThresholdCorners
  exact ⟨fun k hk => ⟨threshold_ref_twoPow hk, fun _ => threshold_doc_twoPow hk⟩, fun max => threshold_doc_of_large⟩

end Sys2Proof.Machine
end

section
/-! PROOFS. FILL (43_adapter.md, R160 to R163): the bytes of a completed FILL, and the FILL that the platform leaves stuck (R52). -/

namespace Sys2Proof.Machine

/-! ### The bytes of a completed FILL (R161). -/

/-- The writes of a FILL, byte by byte. -/
def fillWrites (s : State) : List ByteWrite := (List.range (low32 s.la1).toNat).map fun i => (s.fillAddr i, s.fillByteAt i)

theorem fillState_mem (s : State) : (fillState s).mem = applyWrites (notOvertaken s.overtaken (fillWrites s)) s.mem := rfl

/-- A write lands when it is one of the FILL's bytes and no other agent has overtaken it (R244). -/
theorem mem_notOvertaken_fillWrites {s : State} {w : ByteWrite} :
    w ∈ notOvertaken s.overtaken (fillWrites s) ↔
      ∃ i, i < (low32 s.la1).toNat ∧ s.fillAddr i ∉ s.overtaken ∧ (s.fillAddr i, s.fillByteAt i) = w := by
  simp only [notOvertaken, fillWrites, List.mem_filter, List.mem_map, List.mem_range, Bool.not_eq_true', ← Bool.not_eq_true,
    List.contains_iff_mem]
  constructor
  · rintro ⟨⟨i, hi, rfl⟩, hfree⟩
    exact ⟨i, hi, hfree, rfl⟩
  · rintro ⟨i, hi, hfree, rfl⟩
    exact ⟨⟨i, hi, rfl⟩, hfree⟩

/-- The bytes of a FILL have different addresses, so each is written at most once. -/
theorem fillWrites_addr_nodup (s : State) : ((fillWrites s).map Prod.fst).Nodup := by
  have haddr : (fillWrites s).map Prod.fst = (List.range (low32 s.la1).toNat).map s.fillAddr := by
    rw [fillWrites, List.map_map]
    rfl
  rw [haddr]
  refine List.nodup_range.map_on fun i hi j hj h => fillAddr_injective s ?_ ?_ h
  · exact (List.mem_range.1 hi).trans ((low32 s.la1).isLt.trans (by norm_num))
  · exact (List.mem_range.1 hj).trans ((low32 s.la1).isLt.trans (by norm_num))

theorem notOvertaken_addr_nodup (s : State) : ((notOvertaken s.overtaken (fillWrites s)).map Prod.fst).Nodup :=
  (fillWrites_addr_nodup s).sublist (List.filter_sublist.map _)

/-- Each byte of the FILL that no other agent has overtaken is in memory. -/
theorem fillState_read_byte {s : State} {i : Nat} (hi : i < (low32 s.la1).toNat) (hfree : s.fillAddr i ∉ s.overtaken) :
    (fillState s).mem.read (s.fillAddr i).toNat = some (s.fillByteAt i) := by
  rw [fillState_mem]
  exact applyWrites_read_mem _ s.mem (notOvertaken_addr_nodup s) (mem_notOvertaken_fillWrites.2 ⟨i, hi, hfree, rfl⟩)

/-- Every other address reads as before. -/
theorem fillState_read_other {s : State} {a : Nat}
    (h : ∀ i, i < (low32 s.la1).toNat → s.fillAddr i ∉ s.overtaken → (s.fillAddr i).toNat ≠ a) :
    (fillState s).mem.read a = s.mem.read a := by
  rw [fillState_mem]
  refine applyWrites_read_other _ fun w hw => ?_
  obtain ⟨i, hi, hfree, rfl⟩ := mem_notOvertaken_fillWrites.1 hw
  exact h i hi hfree

/-! ### FILL by what the platform admits (R52). -/

theorem exec_fill_of_admitted {s : State} (hs : s.seeded = true)
    (hall : ∀ i, i < (low32 s.la1).toNat → admits s.cfg (s.fillAddr i) = true) : exec (.fill true) s = .next (fillState s) := by
  obtain ⟨-, h⟩ | ⟨⟨i, hi, hrefused⟩, -⟩ := execFill_present hs
  · exact h
  · exact nomatch (hall i hi).symm.trans hrefused

theorem exec_fill_of_refused {s : State} (hs : s.seeded = true)
    (hrefused : ∃ i, i < (low32 s.la1).toNat ∧ admits s.cfg (s.fillAddr i) = false) : exec (.fill true) s = .next s := by
  obtain ⟨hall, -⟩ | ⟨-, h⟩ := execFill_present hs
  · obtain ⟨i, hi, hrefused⟩ := hrefused
    exact nomatch (hall i hi).symm.trans hrefused
  · exact h

/-- Settles O32: the admitted FILL writes its bytes at different addresses; an absent buffer and an unseeded engine end in their
errors. -/
theorem fillCompletes : Obligations.FillCompletes := by
  unfold Obligations.FillCompletes
  refine ⟨(decode_eq_legal_iff _ _).2 (by decide), (decode_eq_legal_iff _ _).2 (by decide), fun s =>
    ⟨unseededEnds_of_isDrawing rfl s, unseededEnds_of_isDrawing rfl s, ?absent, ?present⟩⟩
  case absent => exact fun hs => ⟨_, exec_fill_absent_of_seeded hs, raiseError_ends .nullBuffer .buffer 0 s⟩
  case present =>
    intro hs hall
    exact ⟨_, exec_fill_of_admitted hs hall, fun _ => fillState_read_byte, fun _ => fillState_read_other,
      ⟨rfl, rfl, rfl, rfl, rfl⟩, rfl, rfl, rfl, rfl, rfl, SurroundingsKept.refl s⟩

/-- A machine whose step answers the same state stays there. -/
theorem core_run_of_step_self {s : State} (h : step s = .next s) (k : Nat) : Sys2Proof.core.run k s = .next s := by
  induction k with
  | zero => rfl
  | succ k ih => exact (core_run_next h k).trans ih

/-- Settles O33: the stuck FILL answers its own state, and with no event that is the step. -/
theorem refusedFillIsStuck : Obligations.RefusedFillIsStuck := by
  unfold Obligations.RefusedFillIsStuck
  intro s hbusy hs hd hrefused
  have hexec := exec_fill_of_refused hs hrefused
  refine ⟨hexec, fun hevents => core_run_of_step_self ?_⟩
  rw [step_nil hevents, blockTurn_busy hbusy, runCommand_legal hd, hexec]

end Sys2Proof.Machine
end

section
/-! PROOFS. SAMPLE (43_adapter.md): it completes (R170), and its integer-only product is r × C rounded to nearest, ties to even
(R172, D18). -/

namespace Sys2Proof.Machine

/-! ### SAMPLE completes (R170, R174). -/

theorem exec_sample_of_seeded {s : State} (h : s.seeded = true) :
    exec .sample s = finishValue sampleBits (drawUntil (fun r => decide (r ≠ u32Max)) retryFuel (startCommand s)) := by
  unfold exec execSample
  exact requireSeeded_of_seeded _ h

/-- With INC odd the retries are not exhausted, so the loop ends with its first accepted draw. -/
theorem finishValue_sampleDraw_of_odd {s : State} (h : s.inc.getLsbD 0 = true) (format : Word32 → Word64) :
    ∃ j, FirstAccepted s (· ≠ 0xFFFFFFFF) j ∧
      finishValue format (drawUntil (fun r => decide (r ≠ u32Max)) retryFuel (startCommand s)) =
        .next (valueState s (j + 1) (format (s.drawAt j))) := by
  obtain hvalue | ⟨hnone, -⟩ := finishValue_sampleDraw s format
  · exact hvalue
  · obtain ⟨d, hd⟩ := sampleDraw_answers (s := startCommand s) h
    exact nomatch hnone.symm.trans hd

/-- Settles O34: past the gate of R232, SAMPLE is its loop and a completion with the product's bits. -/
theorem sampleCompletes : Obligations.SampleCompletes := by
  unfold Obligations.SampleCompletes
  refine ⟨(decode_eq_legal_iff _ _).2 (by decide), fun s => ⟨unseededEnds_of_isDrawing rfl s, fun hs hodd => ?_⟩⟩
  obtain ⟨j, hfirst, hfinish⟩ := finishValue_sampleDraw_of_odd hodd sampleBits
  exact ⟨_, j, (exec_sample_of_seeded hs).trans hfinish, hfirst, valueState_ends s (j + 1) _⟩

/-! ### Nearest values, ties included.

In units of the last place of the rounded value, the binary64 values near the product are the integers, and those below its binade
are no nearer than 2^52. -/

/-- An integer at most half a unit from y is as near as every integer, and as near as another one only at a tie. -/
theorem abs_sub_le_abs_intCast_sub {q m : ℤ} {y : ℚ} (hq : |(q : ℚ) - y| ≤ 1 / 2) (hne : m ≠ q) :
    |(q : ℚ) - y| ≤ |(m : ℚ) - y| ∧ (|(q : ℚ) - y| = |(m : ℚ) - y| → |(q : ℚ) - y| = 1 / 2) := by
  have hapart : (1 : ℚ) ≤ |(m : ℚ) - q| := by exact_mod_cast Int.one_le_abs (sub_ne_zero.2 hne)
  have htriangle : |(m : ℚ) - q| ≤ |(m : ℚ) - y| + |(q : ℚ) - y| := by
    rw [abs_sub_comm (q : ℚ) y]
    exact abs_sub_le _ _ _
  exact ⟨by linarith, fun heq => by linarith⟩

/-- The same against every binary64 value, in units of 2^-k, where y is at least 2^52. -/
theorem abs_sub_le_abs_binary64Value_sub {c : Word64} {k : ℕ} {q : ℤ} {y : ℚ} (hk : k ≤ 1074) (hy : 2 ^ 52 ≤ y)
    (hq : |(q : ℚ) - y| ≤ 1 / 2) (hne : binary64Value c * 2 ^ (k : ℤ) ≠ q) :
    |(q : ℚ) - y| ≤ |binary64Value c * 2 ^ (k : ℤ) - y| ∧
      (|(q : ℚ) - y| = |binary64Value c * 2 ^ (k : ℤ) - y| → |(q : ℚ) - y| = 1 / 2) := by
  obtain ⟨m, hm⟩ | hsmall := binary64_grid c 0 hk
  · rw [pow_zero, mul_one] at hm
    rw [hm] at hne ⊢
    exact abs_sub_le_abs_intCast_sub hq fun h => hne (congrArg _ h)
  · have hfar : |((2 ^ 52 : ℤ) : ℚ) - y| < |binary64Value c * 2 ^ (k : ℤ) - y| := by
      have hbelow : binary64Value c * 2 ^ (k : ℤ) < 2 ^ 52 := (abs_lt.1 hsmall).2
      push_cast
      rw [abs_of_nonpos (by linarith), abs_of_neg (by linarith)]
      linarith
    have hbase : |(q : ℚ) - y| ≤ |((2 ^ 52 : ℤ) : ℚ) - y| := by
      by_cases h : (2 ^ 52 : ℤ) = q
      · rw [h]
      · exact (abs_sub_le_abs_intCast_sub hq h).1
    have hlt := hbase.trans_lt hfar
    exact ⟨hlt.le, fun heq => absurd heq hlt.ne⟩

/-- The pattern of an integer at most half a unit of 2^-k from a number that is at least 2^52 units, even at a tie, is that number
rounded to nearest, ties to even. -/
theorem nearestEven_of_half {b : Word64} {x : ℚ} {k : ℕ} {q : ℤ} (hk : k ≤ 1074) (hfinite : Binary64Finite b)
    (hvalue : binary64Value b * 2 ^ (k : ℤ) = q) (hx : 2 ^ 52 ≤ x * 2 ^ (k : ℤ)) (hnear : |(q : ℚ) - x * 2 ^ (k : ℤ)| ≤ 1 / 2)
    (htie : |(q : ℚ) - x * 2 ^ (k : ℤ)| = 1 / 2 → b.getLsbD 0 = false) : NearestEven x b := by
  have hunit : (0 : ℚ) < 2 ^ (k : ℤ) := by positivity
  have hscale : ∀ c : Word64, |binary64Value c * 2 ^ (k : ℤ) - x * 2 ^ (k : ℤ)| = |binary64Value c - x| * 2 ^ (k : ℤ) := fun c => by
    rw [← sub_mul, abs_mul, abs_of_pos hunit]
  refine ⟨hfinite, fun c _ => ?_⟩
  by_cases hsame : binary64Value c = binary64Value b
  · exact ⟨by rw [hsame], fun _ hne => absurd hsame hne⟩
  · have hne : binary64Value c * 2 ^ (k : ℤ) ≠ q := fun h => hsame (mul_right_cancel₀ hunit.ne' (h.trans hvalue.symm))
    obtain ⟨hle, heven⟩ := abs_sub_le_abs_binary64Value_sub hk hx hnear hne
    rw [← hvalue, hscale, hscale] at hle heven
    refine ⟨le_of_mul_le_mul_right hle hunit, fun heq _ => htie ?_⟩
    rw [← hvalue, hscale]
    exact heven (by rw [heq])

/-- A value that a pattern has exactly is rounded to that pattern. -/
theorem nearestEven_self {b : Word64} (h : Binary64Finite b) : NearestEven (binary64Value b) b := by
  refine ⟨h, fun c _ => ?_⟩
  rw [sub_self, abs_zero]
  exact ⟨abs_nonneg _, fun heq hne => absurd (sub_eq_zero.1 (abs_eq_zero.1 heq.symm)) hne⟩

/-! ### The rounded quotient is the nearest integer (R172). -/

/-- Rounding drops or adds at most half a last place, and where it is a half the quotient is even. -/
theorem roundedQuotient_error (p : ℕ) {d : ℕ} (hd : 0 < d) :
    ∃ e : ℤ, (roundedQuotient p d : ℤ) * 2 ^ d - p = e ∧ 2 * |e| ≤ 2 ^ d ∧ (2 * |e| = 2 ^ d → roundedQuotient p d % 2 = 0) := by
  have hhalf : (2 : ℕ) ^ d = 2 * 2 ^ (d - 1) := by rw [← pow_succ', Nat.sub_add_cancel hd]
  have hhalf' : (2 : ℤ) ^ d = 2 * ((2 ^ (d - 1) : ℕ) : ℤ) := by exact_mod_cast hhalf
  have hdiv : ((p / 2 ^ d : ℕ) : ℤ) * 2 ^ d + (p % 2 ^ d : ℕ) = p := by exact_mod_cast Nat.div_add_mod' p (2 ^ d)
  have hrem : p % 2 ^ d < 2 ^ d := Nat.mod_lt _ (Nat.two_pow_pos d)
  unfold roundedQuotient
  split
  · next hup =>
    refine ⟨2 ^ d - (p % 2 ^ d : ℕ), by push_cast at hdiv ⊢; linarith, ?_⟩
    rw [abs_of_nonneg (by omega)]
    omega
  · next hdown =>
    refine ⟨-(p % 2 ^ d : ℕ), by linarith, ?_⟩
    rw [abs_neg, abs_of_nonneg (by omega)]
    omega

/-- The same in units of the last place. -/
theorem roundedQuotient_near (p : ℕ) {d : ℕ} (hd : 0 < d) :
    |((roundedQuotient p d : ℤ) : ℚ) - p / 2 ^ d| ≤ 1 / 2 ∧
      (|((roundedQuotient p d : ℤ) : ℚ) - p / 2 ^ d| = 1 / 2 → roundedQuotient p d % 2 = 0) := by
  obtain ⟨e, he, hle, heven⟩ := roundedQuotient_error p hd
  have hunit : (0 : ℚ) < 2 ^ d := by positivity
  have hdist : |((roundedQuotient p d : ℤ) : ℚ) - p / 2 ^ d| = |(e : ℚ)| / 2 ^ d := by
    rw [← he, eq_div_iff hunit.ne', ← abs_of_pos hunit, ← abs_mul, abs_of_pos hunit, sub_mul, div_mul_cancel₀ _ hunit.ne']
    push_cast
    rfl
  rw [hdist, div_le_iff₀ hunit, div_eq_iff hunit.ne']
  refine ⟨?_, fun h => heven ?_⟩
  · have hle' : (2 : ℚ) * |(e : ℚ)| ≤ 2 ^ d := by exact_mod_cast hle
    linarith
  · have h' : (2 : ℚ) * |(e : ℚ)| = 2 ^ d := by linarith
    exact_mod_cast h'

/-! ### SAMPLE's product is rounded to nearest, ties to even (R172). -/

theorem mul_binary64Value_C (r : Word32) : (r.toNat : ℚ) * binary64Value 0x3DF0000000100000 = (sampleProduct r : ℚ) / 2 ^ 64 := by
  have hcast : (sampleProduct r : ℚ) = r.toNat * (2 ^ 32 + 1) := by
    unfold sampleProduct
    rw [Nat.cast_mul, Nat.cast_add, Nat.cast_pow, Nat.cast_ofNat, Nat.cast_one]
  have hC : (2 : ℚ) ^ (-32 : ℤ) + 2 ^ (-64 : ℤ) = (2 ^ 32 + 1) / 2 ^ 64 := by norm_num
  rw [binary64Value_C, hcast, hC, mul_div_assoc]

theorem sampleBits_finite {r : Word32} (h : r ≠ 0) : Binary64Finite (sampleBits r) := by
  obtain ⟨⟨q, s⟩, hround⟩ : ∃ qs, roundTo53 (sampleProduct r) = qs := ⟨_, rfl⟩
  obtain ⟨hpos, hlt, hs, -⟩ := roundTo53_spec hround (sampleProduct_pos h) (sampleProduct_lt r)
  obtain ⟨-, hfinite, -⟩ := binary64Value_encode hpos hlt hs
  rwa [sampleBits_eq_encode h hround]

/-- A product of at most 53 bits is SAMPLE's value exactly. -/
theorem binary64Value_sampleBits_of_short {r : Word32} (h : r ≠ 0) (hshort : bitLength (sampleProduct r) ≤ 53) :
    binary64Value (sampleBits r) = (sampleProduct r : ℚ) / 2 ^ 64 := by
  rw [binary64Value_sampleBits h (roundTo53_of_le hshort), pow_zero, mul_one]

/-- SAMPLE's value for a longer product is the rounded quotient in last places, with the carry as without it. -/
theorem binary64Value_sampleBits_of_long {r : Word32} (h : r ≠ 0) {d : ℕ} (hd : bitLength (sampleProduct r) = 53 + d)
    (hpos : 0 < d) : binary64Value (sampleBits r) = ((roundedQuotient (sampleProduct r) d * 2 ^ d : ℕ) : ℚ) / 2 ^ 64 := by
  have hround := roundTo53_of_gt hd hpos
  split at hround
  · next hcarry =>
    rw [binary64Value_sampleBits h hround, hcarry, show 2 ^ 52 * 2 ^ (d + 1) = 2 ^ 53 * 2 ^ d by ring]
  · exact binary64Value_sampleBits h hround

/-- Where the rounded quotient is even, so is the pattern: the carry's 2^52 is even too. -/
theorem sampleBits_even {r : Word32} (h : r ≠ 0) {d : ℕ} (hd : bitLength (sampleProduct r) = 53 + d) (hpos : 0 < d)
    (heven : roundedQuotient (sampleProduct r) d % 2 = 0) : (sampleBits r).getLsbD 0 = false := by
  obtain ⟨⟨q, s⟩, hround⟩ : ∃ qs, roundTo53 (sampleProduct r) = qs := ⟨_, rfl⟩
  obtain ⟨hq0, hq, hs, -⟩ := roundTo53_spec hround (sampleProduct_pos h) (sampleProduct_lt r)
  obtain ⟨-, -, hbit⟩ := binary64Value_encode hq0 hq hs
  have hnormal : 2 ^ 52 ≤ q ∧ q % 2 = 0 := by
    obtain ⟨hlow, hhigh, -⟩ := bitLength_bounds (sampleProduct_pos h)
    rw [hd] at hhigh
    rw [hd, Nat.add_right_comm 52 1 d, Nat.add_sub_cancel] at hlow
    rw [roundTo53_of_gt hd hpos] at hround
    split at hround
    · obtain ⟨rfl, rfl⟩ := Prod.mk.inj hround
      exact ⟨le_rfl, rfl⟩
    · obtain ⟨rfl, rfl⟩ := Prod.mk.inj hround
      exact ⟨(roundedQuotient_bounds hlow hhigh).1, heven⟩
  rw [sampleBits_eq_encode h hround, hbit hnormal.1, decide_eq_false]
  omega

theorem nearestEven_sampleBits_of_long {r : Word32} (h : r ≠ 0) {d : ℕ} (hd : bitLength (sampleProduct r) = 53 + d)
    (hpos : 0 < d) : NearestEven ((sampleProduct r : ℚ) / 2 ^ 64) (sampleBits r) := by
  obtain ⟨hlow, -, -⟩ := bitLength_bounds (sampleProduct_pos h)
  rw [hd, Nat.add_right_comm 52 1 d, Nat.add_sub_cancel] at hlow
  have hd11 : d ≤ 11 := by
    have hexp := (Nat.pow_lt_pow_iff_right (a := 2) (by norm_num)).1 (hlow.trans_lt (sampleProduct_lt r))
    omega
  have hunit : (2 : ℚ) ^ 64 = 2 ^ d * 2 ^ (64 - d) := by rw [← pow_add, Nat.add_sub_cancel' (by omega)]
  have hproduct : (sampleProduct r : ℚ) / 2 ^ 64 * 2 ^ ((64 - d : ℕ) : ℤ) = sampleProduct r / 2 ^ d := by
    rw [zpow_natCast, hunit]
    field_simp
  obtain ⟨hnear, heven⟩ := roundedQuotient_near (sampleProduct r) hpos
  refine nearestEven_of_half (k := 64 - d) (q := roundedQuotient (sampleProduct r) d) (by omega) (sampleBits_finite h) ?_ ?_ ?_ ?_
  · rw [binary64Value_sampleBits_of_long h hd hpos, zpow_natCast, hunit]
    push_cast
    field_simp
  · rw [hproduct, le_div_iff₀ (by positivity), ← pow_add]
    exact_mod_cast hlow
  · rwa [hproduct]
  · rw [hproduct]
    exact fun htie => sampleBits_even h hd hpos (heven htie)

/-- Settles O36: a product of at most 53 bits is exact, and a longer one is the integer nearest to it in last places. -/
theorem sampleRoundsToNearestEven : Obligations.SampleRoundsToNearestEven := by
  unfold Obligations.SampleRoundsToNearestEven
  intro r
  rw [mul_binary64Value_C]
  by_cases h : r = 0
  · have hzero : (sampleProduct r : ℚ) / 2 ^ 64 = binary64Value (sampleBits 0) := by
      rw [h, binary64Value_sampleBits_zero, show sampleProduct 0 = 0 from rfl]
      norm_num
    rw [hzero, h]
    exact nearestEven_self (by decide)
  by_cases hshort : bitLength (sampleProduct r) ≤ 53
  · rw [← binary64Value_sampleBits_of_short h hshort]
    exact nearestEven_self (sampleBits_finite h)
  · exact nearestEven_sampleBits_of_long h (d := bitLength (sampleProduct r) - 53) (by omega) (by omega)

end Sys2Proof.Machine
end

section
/-! PROOFS. The register port (10_state.md, 20_memory.md): which accesses are accepted (R56), what reads return and writes change
(R26 to R33, R58), the issue of a command (R27, R205) and STATUS (R28). -/

namespace Sys2Proof.Machine

/-! ### The port, by register (R26, R56). -/

/-- An access at a register's own address reaches that register. -/
theorem portSelect_portBase_add (base : Word64) (r : PortReg) : portSelect (base + r.offset - base) r.width = some r :=
  portSelect_eq_some.2 ⟨by rw [BitVec.add_comm, BitVec.add_sub_cancel], rfl⟩

theorem step_write {s : State} {data : Word64} {rest : List Event} (r : PortReg)
    (h : s.events = .access (.write (s.cfg.portBase + r.offset) r.width data) :: rest) :
    step s = .next (portWrite r data { s with events := rest }) := by
  rw [step_cons h]
  simp only [takeEvent, portAccess, portSelect_portBase_add]

theorem step_read {s : State} {rest : List Event} (r : PortReg)
    (h : s.events = .access (.read (s.cfg.portBase + r.offset) r.width) :: rest) :
    step s = .next (portRead r { s with events := rest }) := by
  rw [step_cons h]
  simp only [takeEvent, portAccess, portSelect_portBase_add]

/-! ### Which accesses reach a register (R56). -/

/-- The platform address of an access. -/
def Access.addr : Access → Word64
  | .read addr _ => addr
  | .write addr _ _ => addr

/-- The width of an access, in bits. -/
def Access.width : Access → Nat
  | .read _ width => width
  | .write _ width _ => width

/-- What an access does once it has reached a register. -/
def Access.reach : Access → PortReg → State → State
  | .read _ _, r, s => portRead r s
  | .write _ _ data, r, s => portWrite r data s

/-- An access, of either kind, acts on the register it reaches or is refused. -/
theorem portAccess_eq (a : Access) (s : State) :
    portAccess a s = (portSelect (a.addr - s.cfg.portBase) a.width).elim (.refused (.portAccess a.addr a.width))
      (fun r => .next (a.reach r s)) := by
  cases a with
  | read addr width =>
    simp only [portAccess, Access.addr, Access.width, Access.reach]
    cases portSelect (addr - s.cfg.portBase) width <;> rfl
  | write addr width data =>
    simp only [portAccess, Access.addr, Access.width, Access.reach]
    cases portSelect (addr - s.cfg.portBase) width <;> rfl

/-- The registers' offsets and widths as numbers (R26). -/
def AtRegister (offset width : Nat) : Prop :=
  (offset = 0x00 ∨ offset = 0x04) ∧ width = 32 ∨
    (offset = 0x08 ∨ offset = 0x10 ∨ offset = 0x18 ∨ offset = 0x20 ∨ offset = 0x28) ∧ width = 64

/-- Those offsets and widths, and no others, select a register. -/
theorem exists_portSelect_eq_some_iff (offset : Word64) (width : Nat) :
    (∃ r, portSelect offset width = some r) ↔ AtRegister offset.toNat width := by
  simp only [portSelect_eq_some]
  constructor
  · rintro ⟨r, rfl, rfl⟩
    cases r with
    | cmd | status => exact .inl ⟨by decide, rfl⟩
    | arg0 | arg1 | result | errval | draws => exact .inr ⟨by decide, rfl⟩
  · have hreg : ∀ r : PortReg, offset.toNat = r.offset.toNat → width = r.width → ∃ r : PortReg, offset = r.offset ∧ width = r.width :=
      fun r ho hw => ⟨r, BitVec.eq_of_toNat_eq ho, hw⟩
    rintro (⟨h | h, hw⟩ | ⟨h | h | h | h | h, hw⟩)
    · exact hreg .cmd h hw
    · exact hreg .status h hw
    · exact hreg .arg0 h hw
    · exact hreg .arg1 h hw
    · exact hreg .result h hw
    · exact hreg .errval h hw
    · exact hreg .draws h hw

/-- No command is ever refused. -/
theorem runCommand_ne_refused (s : State) (r : Refusal) : runCommand s ≠ .refused r := by
  obtain ⟨-, -, h⟩ | ⟨i, -, -, hout⟩ := runCommand_cases s
  · rw [h]
    exact nofun
  · intro h
    rw [h] at hout
    cases hout

theorem step_access_of_atRegister {s : State} {a : Access} {rest : List Event} (h : s.events = .access a :: rest)
    (hat : AtRegister (a.addr - s.cfg.portBase).toNat a.width) : ∃ t, step s = .next t := by
  obtain ⟨r, hr⟩ := (exists_portSelect_eq_some_iff _ _).2 hat
  exact ⟨_, by rw [step_cons h, takeEvent, portAccess_eq, hr]; rfl⟩

theorem step_access_of_not_atRegister {s : State} {a : Access} {rest : List Event} (h : s.events = .access a :: rest)
    (hnot : ¬AtRegister (a.addr - s.cfg.portBase).toNat a.width) : step s = .refused (.portAccess a.addr a.width) := by
  have hnone : portSelect (a.addr - s.cfg.portBase) a.width = none :=
    Option.eq_none_iff_forall_ne_some.2 fun r hr => hnot ((exists_portSelect_eq_some_iff _ _).1 ⟨r, hr⟩)
  rw [step_cons h, takeEvent, portAccess_eq, hnone]
  rfl

/-- Settles O46: an access is accepted when its offset and width are a register's, and a refused step is a port access. -/
theorem portAcceptsExactlyItsRegisters : Obligations.PortAcceptsExactlyItsRegisters := by
  unfold Obligations.PortAcceptsExactlyItsRegisters
  refine ⟨fun s a rest h => ?_, fun s r h => ?_⟩
  · cases a with
    | read | write => exact ⟨step_access_of_atRegister h, step_access_of_not_atRegister h⟩
  · obtain ⟨-, -, ev, pd, hrun⟩ | ⟨a, rest, he, -⟩ := step_stop_cases h (by simp)
    · exact absurd hrun (runCommand_ne_refused _ r)
    · exact ⟨a, rest, he⟩

/-! ### Reads (R58) and writes of the registers (R29, R33). -/

/-- No register's value depends on what the agents do next. -/
theorem portValue_withEvents (s : State) (ev : List Event) (r : PortReg) :
    portValue { s with events := ev } r = portValue s r := by
  cases r <;> rfl

/-- Settles O47: the list is that of the registers with their values. -/
theorem portReads : Obligations.PortReads := by
  unfold Obligations.PortReads
  intro s off width v rest h hmem
  have hregs : (off, width, v) ∈ portRegs.map fun r => (r.offset, r.width, portValue s r) := hmem
  obtain ⟨r, -, hr⟩ := List.mem_map.1 hregs
  cases hr
  rw [step_read r h, portRead, portValue_withEvents]

/-- Settles O48: ARG0 and ARG1 take the data, and the read-only registers ignore it. -/
theorem portWrites : Obligations.PortWrites := by
  unfold Obligations.PortWrites
  intro s off width data rest h
  refine ⟨?_, ?_, fun hmem => ?_⟩
  · rintro rfl rfl
    exact step_write .arg0 h
  · rintro rfl rfl
    exact step_write .arg1 h
  · have hregs : (off, width) ∈ [PortReg.status, .result, .errval, .draws].map fun r => (r.offset, r.width) := hmem
    obtain ⟨r, hr, heq⟩ := List.mem_map.1 hregs
    cases heq
    have hignored : ∀ r ∈ [PortReg.status, .result, .errval, .draws], ∀ u, portWrite r data u = u := by simp [portWrite]
    rw [step_write r h, hignored r hr]

/-! ### The issue of a command (R27, R205). -/

/-- A write of CMD, at PORT_BASE itself. -/
theorem step_write_cmd {s : State} {data : Word64} {rest : List Event}
    (h : s.events = .access (.write s.cfg.portBase 32 data) :: rest) :
    step s = .next (portWrite .cmd data { s with events := rest }) :=
  step_write .cmd (by rw [h, show PortReg.cmd.offset = 0#64 from rfl, BitVec.add_zero]; rfl)

theorem step_write_cmd_idle {s : State} {data : Word64} {rest : List Event} (hidle : s.busy = false)
    (h : s.events = .access (.write s.cfg.portBase 32 data) :: rest) :
    step s = .next (issue (low32 data) { s with events := rest }) := by
  rw [step_write_cmd h, portWrite_cmd_idle (s := { s with events := rest }) hidle]

/-- Settles O41: an issue latches and sets BUSY. -/
theorem cmdWriteIssues : Obligations.CmdWriteIssues := by
  unfold Obligations.CmdWriteIssues
  intro s data rest hidle h
  obtain ⟨v, f, hdriven, hfree, hissue⟩ := issue_cases (low32 data) { s with events := rest }
  refine ⟨_, (step_write_cmd_idle hidle h).trans (congrArg _ hissue), rfl, rfl, rfl, rfl, hdriven, hfree, ?_⟩
  exact ⟨⟨rfl, rfl, rfl⟩, ⟨rfl, rfl, rfl, rfl, rfl⟩, rfl, fun _ => rfl, rfl, rfl, rfl, rfl, rfl, rfl, rfl⟩

/-! ### STATUS (R28, R33). -/

theorem append_toNat {m n : Nat} (x : BitVec m) (y : BitVec n) : (x ++ y).toNat = x.toNat * 2 ^ n + y.toNat := by
  rw [BitVec.toNat_append, ← Nat.shiftLeft_add_eq_or_of_lt y.isLt, Nat.shiftLeft_eq]

/-- A word put together as STATUS is, as a number. -/
theorem statusLayout_toNat (p : BitVec 2) (e : BitVec 4) (o d b : Bool) :
    ((0 : BitVec 22) ++ p ++ e ++ (0 : BitVec 1) ++ BitVec.ofBool o ++ BitVec.ofBool d ++ BitVec.ofBool b).toNat =
      p.toNat * 2 ^ 8 + e.toNat * 2 ^ 4 + o.toNat * 2 ^ 2 + d.toNat * 2 + b.toNat := by
  simp only [append_toNat, BitVec.toNat_ofBool, BitVec.ofNat_eq_ofNat, BitVec.toNat_ofNat]
  omega

theorem statusWord_toNat (s : State) :
    (statusWord s).toNat =
      s.param.code.toNat * 2 ^ 8 + s.err.code.toNat * 2 ^ 4 + s.ovr.toNat * 2 ^ 2 + s.seeded.toNat * 2 + s.busy.toNat :=
  statusLayout_toNat s.param.code s.err.code s.ovr s.seeded s.busy

/-- A bit of a word as a digit of its number. -/
theorem getLsbD_eq_of_toNat {w : Word32} {i : Nat} {b : Bool} (h : w.toNat / 2 ^ i % 2 = b.toNat) : w.getLsbD i = b := by
  rw [BitVec.getLsbD, Nat.testBit_eq_decide_div_mod_eq, h]
  cases b <;> rfl

/-- A field of a word as a digit group of its number. -/
theorem extractLsb'_eq_of_toNat {w : Word32} {start len : Nat} {v : BitVec len} (h : w.toNat / 2 ^ start % 2 ^ len = v.toNat) :
    w.extractLsb' start len = v := by
  apply BitVec.eq_of_toNat_eq
  rw [BitVec.extractLsb'_toNat, Nat.shiftRight_eq_div_pow, h]

/-- Settles O44: each field is a digit group of the word's number, the codes being below their fields' sizes. -/
theorem statusFields : Obligations.StatusFields := by
  unfold Obligations.StatusFields
  intro s
  have hw := statusWord_toNat s
  have hbusy := s.busy.toNat_le
  have hseeded := s.seeded.toNat_le
  have hovr := s.ovr.toNat_le
  have herr := s.err.code.isLt
  have hparam := s.param.code.isLt
  refine ⟨getLsbD_eq_of_toNat ?_, getLsbD_eq_of_toNat ?_, getLsbD_eq_of_toNat ?_, getLsbD_eq_of_toNat ?_, ?_, ?_, ?_⟩
  · omega
  · omega
  · omega
  · show _ = 0
    omega
  · have hcode : (statusWord s).extractLsb' 4 4 = s.err.code := extractLsb'_eq_of_toNat (by omega)
    rw [hcode]
    cases s.err <;> rfl
  · have hcode : (statusWord s).extractLsb' 8 2 = s.param.code := extractLsb'_eq_of_toNat (by omega)
    rw [hcode]
    cases s.param <;> rfl
  · refine extractLsb'_eq_of_toNat ?_
    show _ = 0
    omega

end Sys2Proof.Machine
end

section
/-! PROOFS. What a step may change: the engine (R20, R22, R25), OVR (R206) and the reports (R28, R207); and what the running command
does not read: ARG0 and ARG1 (R29, R65), and the engine while SEEDED = 0 (R25). -/

namespace Sys2Proof.Machine

/-! ### The block's move by the end of its command. -/

/-- A command that answers a next state has an illegal word, or is legal and ends in one of the ways listed. -/
theorem runCommand_next_cases {s t : State} (h : runCommand s = .next t) :
    (∃ why, decode s.lcmd = .illegal why ∧ t = raiseError .illegalCmd .noParam 0 s) ∨
      ∃ i, decode s.lcmd = .legal i ∧ ExecOutcome s i (.next t) := by
  obtain ⟨why, hd, hrun⟩ | ⟨i, hd, -, hout⟩ := runCommand_cases s
  · exact .inl ⟨why, hd, Host.Outcome.next.inj (h.symm.trans hrun)⟩
  · exact .inr ⟨i, hd, h ▸ hout⟩

/-- INC and SEEDED are a construction's to change, STATE a construction's or a drawing command's. -/
theorem runCommand_engine {s t : State} (h : runCommand s = .next t) :
    (t.inc ≠ s.inc ∨ t.seeded ≠ s.seeded → ∃ i, decode s.lcmd = .legal i ∧ i.isConstruction = true) ∧
      (t.stateReg ≠ s.stateReg → ∃ i, decode s.lcmd = .legal i ∧ (i.isConstruction = true ∨ i.isDrawing = true)) := by
  obtain ⟨-, -, rfl⟩ | ⟨i, hd, hout⟩ := runCommand_next_cases h
  · simp
  · cases hout with
    | constructed seed stream hi => exact ⟨fun _ => ⟨i, hd, hi⟩, fun _ => ⟨i, hd, .inl hi⟩⟩
    | value k v hi hs => exact ⟨by simp [valueState], fun _ => ⟨i, hd, .inr hi⟩⟩
    | filled hi hs => exact ⟨by simp [fillState], fun _ => ⟨i, hd, .inr (hi ▸ rfl)⟩⟩
    | cleared | failed | stuck => simp

/-- Settles O39: a step that is no reset changes the engine only on the block's move. -/
theorem onlyCommandsChangeTheEngine : Obligations.OnlyCommandsChangeTheEngine := by
  unfold Obligations.OnlyCommandsChangeTheEngine
  intro s t h hreset
  obtain ⟨rest, he, -⟩ | ⟨hbusy, hmoves, ev, pd, hrun⟩ | ⟨-, w, ev, rfl⟩ |
    ⟨x, y, o, ti, pd, bd, m, ov, f, ev, -, -, -, rfl⟩ := step_next_cases h
  · exact absurd ⟨rest, he⟩ hreset
  · obtain ⟨hconstruction, hdrawing⟩ := runCommand_engine hrun
    exact ⟨fun hne => ⟨hbusy, hmoves, hconstruction hne⟩, fun hne => ⟨hbusy, hmoves, hdrawing hne⟩⟩
  · simp
  · simp

/-! ### OVR (R206). -/

theorem runCommand_ovr {s t : State} (h : runCommand s = .next t) : t.ovr = s.ovr ∨ decode s.lcmd = .legal .clrstat := by
  obtain ⟨-, -, rfl⟩ | ⟨i, hd, hout⟩ := runCommand_next_cases h
  · exact .inl rfl
  · cases hout with
    | cleared hi => exact .inr (hi ▸ hd)
    | constructed | failed | value | filled | stuck => exact .inl rfl

/-- Settles O42: of the steps that are no reset only the block's move can clear OVR, and of the commands only CLRSTAT. -/
theorem overrunIsSticky : Obligations.OverrunIsSticky := by
  unfold Obligations.OverrunIsSticky
  refine ⟨fun s data rest hbusy h => ?_, fun s t h hset hclear => ?_⟩
  · rw [step_write_cmd h, portWrite, if_pos hbusy]
  · obtain ⟨rest, he, -⟩ | ⟨hbusy, hmoves, ev, pd, hrun⟩ | ⟨-, w, ev, rfl⟩ |
      ⟨x, y, o, ti, pd, bd, m, ov, f, ev, ho, -, -, rfl⟩ := step_next_cases h
    · exact .inl ⟨rest, he⟩
    · obtain hkept | hclrstat := runCommand_ovr hrun
      · exact nomatch hclear.symm.trans (hkept.trans hset)
      · exact .inr ⟨hbusy, hmoves, hclrstat⟩
    · rw [issue_ovr] at hclear
      exact nomatch hclear.symm.trans hset
    · obtain rfl | ⟨-, rfl⟩ := ho
      · exact nomatch hclear.symm.trans hset
      · cases hclear

/-! ### The reports (R28, R207). -/

/-- A command that does not complete is a stuck FILL, which changes nothing. -/
theorem runCommand_completes_or_self {s t : State} (h : runCommand s = .next t) : t.busy = false ∨ t = s := by
  obtain ⟨-, -, rfl⟩ | ⟨i, hd, hout⟩ := runCommand_next_cases h
  · exact .inl rfl
  · cases hout with
    | stuck => exact .inr rfl
    | constructed | cleared | failed | value | filled => exact .inl rfl

/-- Settles O45: outside reset the reports and the engine change on the block's move alone, and there with BUSY. -/
theorem reportsChangeOnlyAtCompletion : Obligations.ReportsChangeOnlyAtCompletion := by
  unfold Obligations.ReportsChangeOnlyAtCompletion
  intro s t h hreset hrunning
  obtain ⟨rest, he, -⟩ | ⟨hbusy, -, ev, pd, hrun⟩ | ⟨-, w, ev, rfl⟩ |
    ⟨x, y, o, ti, pd, bd, m, ov, f, ev, -, -, -, rfl⟩ := step_next_cases h
  · exact absurd ⟨rest, he⟩ hreset
  · obtain hdone | rfl := runCommand_completes_or_self hrun
    · exact absurd ⟨hbusy, hdone⟩ hrunning
    · exact ⟨⟨rfl, rfl, rfl, rfl, rfl⟩, rfl, rfl, rfl⟩
  · simp [ReportsKept, EngineKept]
  · exact ⟨⟨rfl, rfl, rfl, rfl, rfl⟩, rfl, rfl, rfl⟩

/-! ### What a running command does not read of the host's side (R29, R65). -/

/-- The state with ARG0, ARG1, the events and the port's data changed. -/
def State.mapHost (f g : Word64 → Word64) (ev : List Event → List Event) (pd : Option Word64 → Option Word64) (s : State) : State :=
  { s with arg0 := f s.arg0, arg1 := g s.arg1, events := ev s.events, portData := pd s.portData }

/-- Every end of a command keeps the host's side as it is. -/
theorem EndsAlike.eq_mapNext {s : State} {f g : Word64 → Word64} {ev : List Event → List Event}
    {pd : Option Word64 → Option Word64} {r r' : Result} (h : EndsAlike s (s.mapHost f g ev pd) r r') :
    r' = mapNext (State.mapHost f g ev pd) r := by
  cases h with
  | constructed | cleared | failed | value | filled | stuck | exhausted => rfl

theorem exec_mapHost (i : Instr) (s : State) (f g : Word64 → Word64) (ev : List Event → List Event)
    (pd : Option Word64 → Option Word64) : exec i (s.mapHost f g ev pd) = mapNext (State.mapHost f g ev pd) (exec i s) :=
  (exec_endsAlike i (s := s) (t := s.mapHost f g ev pd) rfl rfl rfl rfl rfl rfl rfl).eq_mapNext

theorem runCommand_mapHost (s : State) (f g : Word64 → Word64) (ev : List Event → List Event)
    (pd : Option Word64 → Option Word64) : runCommand (s.mapHost f g ev pd) = mapNext (State.mapHost f g ev pd) (runCommand s) := by
  have hlcmd : (s.mapHost f g ev pd).lcmd = s.lcmd := rfl
  cases hd : decode s.lcmd with
  | legal i => rw [runCommand_legal hd, runCommand_legal (hlcmd ▸ hd), exec_mapHost]
  | illegal why =>
    rw [runCommand_illegal hd, runCommand_illegal (hlcmd ▸ hd)]
    rfl

/-- Settles O43: a command reads its latched operands, and no end of it touches ARG0 or ARG1. -/
theorem runningCommandIgnoresArgWrites : Obligations.RunningCommandIgnoresArgWrites := by
  unfold Obligations.RunningCommandIgnoresArgWrites
  exact fun s x y => runCommand_mapHost s (fun _ => x) (fun _ => y) id id

/-! ### The engine while SEEDED = 0 (R25). -/

/-- Two results that differ at most in the STATE and INC of the next state. -/
def AlikeButEngine (r r' : Result) : Prop :=
  (∃ t x y, r = .next t ∧ r' = .next (t.withEngine x y t.seeded)) ∨ (∃ e, r = .refused e ∧ r' = .refused e)

/-- Next states are such results where one is the other with another STATE and INC. -/
theorem AlikeButEngine.next {u u' : State} (x y : Word64) (h : u' = u.withEngine x y u.seeded) :
    AlikeButEngine (.next u) (.next u') :=
  .inl ⟨u, x, y, rfl, by rw [h]⟩

theorem runCommand_alikeButEngine {s : State} (hs : s.seeded = false) (x y : Word64) :
    AlikeButEngine (runCommand s) (runCommand (s.withEngine x y s.seeded)) := by
  have hlcmd : (s.withEngine x y s.seeded).lcmd = s.lcmd := rfl
  cases hd : decode s.lcmd with
  | illegal why =>
    rw [runCommand_illegal hd, runCommand_illegal (hlcmd ▸ hd)]
    exact .next x y rfl
  | legal i =>
    rw [runCommand_legal hd, runCommand_legal (hlcmd ▸ hd)]
    cases hi : i.isDrawing with
    | true =>
      rw [exec_of_unseeded hi hs, exec_of_unseeded hi (show (s.withEngine x y s.seeded).seeded = false from hs)]
      exact .next x y rfl
    | false =>
      cases i with
      | seed | seedd | seedt => exact .next _ _ rfl
      | clrstat => exact .next x y rfl
      | nextu32 | bounded | next | below | range | fill | sample => cases hi

theorem pollStatus_of_idle {s : State} (h : s.busy = false) : pollStatus s = .next (portRead .status s) := by
  simp [pollStatus, h]

theorem pollStatus_of_busy {s : State} (h : s.busy = true) :
    pollStatus s = runCommand { portRead .status s with events := .wait :: s.events } := by
  obtain ⟨hidle, -⟩ | ⟨-, hpoll⟩ := pollStatus_cases s
  · exact nomatch hidle.symm.trans h
  · exact hpoll

theorem blockTurn_alikeButEngine {s : State} (hs : s.seeded = false) (x y : Word64) :
    AlikeButEngine (blockTurn s) (blockTurn (s.withEngine x y s.seeded)) := by
  have hbusy' : (s.withEngine x y s.seeded).busy = s.busy := rfl
  obtain ⟨hidle, hturn⟩ | ⟨hbusy, hturn⟩ := blockTurn_cases s
  · rw [hturn, blockTurn_idle (hbusy'.trans hidle)]
    exact .next x y rfl
  · rw [hturn, blockTurn_busy (hbusy'.trans hbusy)]
    exact runCommand_alikeButEngine hs x y

theorem pollStatus_alikeButEngine {s : State} (hs : s.seeded = false) (x y : Word64) :
    AlikeButEngine (pollStatus s) (pollStatus (s.withEngine x y s.seeded)) := by
  have hbusy' : (s.withEngine x y s.seeded).busy = s.busy := rfl
  obtain ⟨hidle, hpoll⟩ | ⟨hbusy, hpoll⟩ := pollStatus_cases s
  · rw [hpoll, pollStatus_of_idle (hbusy'.trans hidle)]
    exact .next x y rfl
  · rw [hpoll, pollStatus_of_busy (hbusy'.trans hbusy)]
    exact runCommand_alikeButEngine (s := { portRead .status s with events := .wait :: s.events }) hs x y

@[simp] theorem withEngine_busy (s : State) (x y : Word64) (b : Bool) : (s.withEngine x y b).busy = s.busy := rfl

theorem issue_withEngine (w : Word32) (s : State) (x y : Word64) (b : Bool) :
    issue w (s.withEngine x y b) = (issue w s).withEngine x y b := by
  have hlatch : latchTime (s.withEngine x y b) = ((latchTime s).1, (latchTime s).2.withEngine x y b) := by
    have htime : (s.withEngine x y b).time = s.time := rfl
    unfold latchTime
    rw [htime]
    cases s.time with
    | none => rfl
    | some t => rfl
  unfold issue
  rw [hlatch]
  rfl

theorem portWrite_withEngine (r : PortReg) (data : Word64) (s : State) (x y : Word64) (b : Bool) :
    portWrite r data (s.withEngine x y b) = (portWrite r data s).withEngine x y b := by
  cases r with
  | status | arg0 | arg1 | result | errval | draws => rfl
  | cmd =>
    simp only [portWrite, withEngine_busy, issue_withEngine]
    split
    · rfl
    · rfl

theorem portWrite_seeded (r : PortReg) (data : Word64) (s : State) : (portWrite r data s).seeded = s.seeded := by
  obtain ⟨-, -, h⟩ | ⟨x, y, o, -, h⟩ := portWrite_cases r data s
  · rw [h, issue_seeded]
  · rw [h]

/-- The port reaches neither STATE nor INC. -/
theorem portAccess_alikeButEngine (a : Access) (s : State) (x y : Word64) :
    AlikeButEngine (portAccess a s) (portAccess a (s.withEngine x y s.seeded)) := by
  rw [portAccess_eq, portAccess_eq, withEngine_cfg]
  cases portSelect (a.addr - s.cfg.portBase) a.width with
  | none => exact .inr ⟨_, rfl, rfl⟩
  | some r =>
    refine .next x y ?_
    cases a with
    | read addr width => cases r <;> rfl
    | write addr width data =>
      rw [Access.reach, Access.reach, portWrite_withEngine, portWrite_seeded]

theorem pendingWrites_unseeded {s : State} (hs : s.seeded = false) : pendingWrites s = [] := by
  simp [pendingWrites, hs]

theorem pendingByte_unseeded {s : State} (hs : s.seeded = false) (a : Word64) : pendingByte s a = none := by
  simp [pendingByte, pendingWrites_unseeded hs]

/-- Without a running FILL on a constructed engine another agent meets the memory alone. -/
theorem bufferRead_unseeded {s : State} (hs : s.seeded = false) (a : Word64) :
    bufferRead a s = { s with bufData := some (bufferByte s a) } := by
  rw [bufferRead, pendingByte_unseeded hs]

theorem bufferWrite_unseeded {s : State} (hs : s.seeded = false) (a : Word64) (v : Byte) :
    bufferWrite a v s = { s with mem := s.mem.write a.toNat v } := by
  rw [bufferWrite, pendingByte_unseeded hs]

theorem resetBlock_unseeded {s : State} (hs : s.seeded = false) :
    resetBlock s = { State.reset with
      mem := s.mem, cfg := s.cfg, time := s.time, events := s.events, portData := s.portData, bufData := s.bufData
      freeIdx := s.freeIdx + 1 } := by
  rw [resetBlock, pendingWrites_unseeded hs]
  rfl

theorem takeEvent_alikeButEngine (e : Event) {s : State} (hs : s.seeded = false) (x y : Word64) :
    AlikeButEngine (takeEvent e s) (takeEvent e (s.withEngine x y s.seeded)) := by
  have hs' : (s.withEngine x y s.seeded).seeded = false := hs
  cases e with
  | access a => exact portAccess_alikeButEngine a s x y
  | wait => exact pollStatus_alikeButEngine hs x y
  | block => exact blockTurn_alikeButEngine hs x y
  | driveTime t => exact .next x y rfl
  | reset =>
    rw [takeEvent, takeEvent, resetBlock_unseeded hs, resetBlock_unseeded hs']
    exact .next 0 0 rfl
  | bufRead a =>
    rw [takeEvent, takeEvent, bufferRead_unseeded hs, bufferRead_unseeded hs']
    exact .next x y rfl
  | bufWrite a v =>
    rw [takeEvent, takeEvent, bufferWrite_unseeded hs, bufferWrite_unseeded hs']
    exact .next x y rfl

theorem step_alikeButEngine {s : State} (hs : s.seeded = false) (x y : Word64) :
    AlikeButEngine (step s) (step (s.withEngine x y s.seeded)) := by
  have hevents : (s.withEngine x y s.seeded).events = s.events := rfl
  cases he : s.events with
  | nil =>
    rw [step_nil he, step_nil (hevents.trans he)]
    exact blockTurn_alikeButEngine hs x y
  | cons e rest =>
    rw [step_cons he, step_cons (hevents.trans he)]
    exact takeEvent_alikeButEngine e (s := { s with events := rest }) hs x y

/-- Settles O40: from two states that differ in STATE and INC alone the steps end alike but for those, event by event. -/
theorem unseededEngineIsNeverRead : Obligations.UnseededEngineIsNeverRead := by
  unfold Obligations.UnseededEngineIsNeverRead
  intro s x y hs
  obtain ⟨u, x', y', hu, hu'⟩ | ⟨e, he, he'⟩ := step_alikeButEngine hs x y
  · refine ⟨fun t ht => ⟨x', y', hu'.trans ?_⟩, fun r hr => nomatch hu.symm.trans hr⟩
    rw [Host.Outcome.next.inj (ht.symm.trans hu)]
    rfl
  · exact ⟨fun t ht => (nomatch he.symm.trans ht), fun r hr => he'.trans (he.symm.trans hr)⟩

end Sys2Proof.Machine
end

section
/-! PROOFS. The agents outside the block and reset: the buffer memory between them and a running FILL (R62, R244), moves that leave
the block alone (R215), reset (R39, R230, R231), and the block's turn as the execution of its command (R209, R247). -/

namespace Sys2Proof.Machine

/-! ### Other agents (R62, R215, R244). -/

/-- Settles O49: a byte read is the memory's or a pending one's, and only a running FILL on a constructed engine has pending
bytes. -/
theorem bufferReadIsOldOrNew : Obligations.BufferReadIsOldOrNew := by
  unfold Obligations.BufferReadIsOldOrNew
  intro s a rest h
  obtain ⟨v, f, hread, hv⟩ := bufferRead_cases a { s with events := rest }
  have hstep : step s = .next _ := (step_cons h).trans (congrArg Host.Outcome.next hread)
  refine ⟨_, v, hstep, rfl, ?_, rfl, rfl, ⟨rfl, rfl, rfl⟩, ⟨rfl, rfl, rfl, rfl, rfl⟩, fun _ => rfl⟩
  obtain hold | hnew := hv
  · exact .inl hold
  · obtain ⟨hbusy, hs, hd, i, hi, haddr, hbyte⟩ := pendingByte_eq_some hnew
    exact .inr ⟨hbusy, hs, hd, i, hi, haddr, hbyte.symm⟩

/-- Settles O50: the idle block's step answers its own state, and the outside agents' moves set the driven TIME or one byte. -/
theorem outsideMovesLeaveTheBlockAlone : Obligations.OutsideMovesLeaveTheBlockAlone := by
  unfold Obligations.OutsideMovesLeaveTheBlockAlone
  refine ⟨fun s hidle h => core_run_of_step_self ?idle, fun s v rest h => step_cons h, fun s a v rest h => ?write⟩
  case idle => rw [step_nil h, blockTurn_idle hidle]
  case write =>
    obtain ⟨o, f, hwrite, -⟩ := bufferWrite_cases a v { s with events := rest }
    have hstep : step s = .next _ := (step_cons h).trans (congrArg Host.Outcome.next hwrite)
    exact ⟨_, hstep, Memory.read_write_same s.mem a.toNat v, fun b hb => Memory.read_write_other s.mem v hb, rfl, rfl,
      ⟨rfl, rfl, rfl⟩, ⟨rfl, rfl, rfl, rfl, rfl⟩, rfl, rfl, rfl, rfl, rfl, rfl⟩

/-! ### Reset (R39, R230, R231). -/

theorem step_reset {s : State} {rest : List Event} (h : s.events = .reset :: rest) :
    step s = .next (resetBlock { s with events := rest }) := step_cons h

theorem statusWord_eq_zero {s : State} (hbusy : s.busy = false) (hseeded : s.seeded = false) (hovr : s.ovr = false)
    (herr : s.err = .noError) (hparam : s.param = .noParam) : statusWord s = 0 := by
  apply BitVec.eq_of_toNat_eq
  rw [statusWord_toNat, hbusy, hseeded, hovr, herr, hparam]
  rfl

/-- Settles O55: the reset event gives the block the registers of `State.reset`. -/
theorem resetValues : Obligations.ResetValues := by
  unfold Obligations.ResetValues
  refine ⟨fun s rest h => ?_, rfl, statusWord_eq_zero rfl rfl rfl rfl rfl, rfl, rfl, rfl, rfl, rfl⟩
  exact ⟨_, step_reset h, rfl, statusWord_eq_zero rfl rfl rfl rfl rfl, rfl, rfl, rfl, rfl, rfl, rfl, rfl⟩

/-- After reset a byte of memory is the old one or one of the abandoned FILL's. -/
theorem resetBlock_read_cases (s : State) (a : Nat) :
    (resetBlock s).mem.read a = s.mem.read a ∨ ∃ w ∈ pendingWrites s, w.1.toNat = a ∧ (resetBlock s).mem.read a = some w.2 := by
  obtain hold | ⟨w, hw, ha, hnew⟩ :=
    applyWrites_read_cases (landedWrites (Config.freeLanded s.freeIdx) 0 (pendingWrites s)) s.mem a
  · exact .inl hold
  · exact .inr ⟨w, landedWrites_subset _ _ _ hw, ha, hnew⟩

/-- Settles O56: what has landed of the abandoned command is a subset of the FILL's pending writes. -/
theorem resetAbandonsTheCommand : Obligations.ResetAbandonsTheCommand := by
  unfold Obligations.ResetAbandonsTheCommand
  intro s rest h
  refine ⟨_, step_reset h, rfl, rfl, rfl, fun a => ?_⟩
  obtain hold | ⟨w, hw, ha, hnew⟩ := resetBlock_read_cases { s with events := rest } a
  · exact .inl hold
  · obtain ⟨hbusy, hs, hd, i, hi, haddr, hbyte⟩ := mem_pendingWrites hw
    exact .inr ⟨hbusy, hs, hd, i, hi, (congrArg BitVec.toNat haddr).trans ha, hnew.trans (congrArg some hbyte.symm)⟩

/-! ### The block's turn (R207, R209, R247). -/

theorem blockTurn_legal {s : State} {i : Instr} (hbusy : s.busy = true) (hd : decode s.lcmd = .legal i) :
    blockTurn s = exec i s := by
  rw [blockTurn_busy hbusy, runCommand_legal hd]

theorem step_block {s : State} {rest : List Event} (h : s.events = .block :: rest) :
    step s = blockTurn { s with events := rest } := step_cons h

/-- A poll of the running block reads STATUS and gives the block its turn; the loop stays the next event. -/
theorem step_wait_busy {s : State} {rest : List Event} (hbusy : s.busy = true) (h : s.events = .wait :: rest) :
    step s = runCommand { s with portData := some (zext32 (statusWord s)) } := by
  rw [step_cons h, takeEvent, pollStatus_of_busy (s := { s with events := rest }) hbusy]
  show runCommand { s with events := .wait :: rest, portData := _ } = _
  rw [← h]
  rfl

theorem step_wait_idle {s : State} {rest : List Event} (hidle : s.busy = false) (h : s.events = .wait :: rest) :
    step s = .next { s with events := rest, portData := some (zext32 (statusWord s)) } := by
  rw [step_cons h, takeEvent, pollStatus_of_idle (s := { s with events := rest }) hidle]
  rfl

/-- `withFetchWord` puts the block's turn before the events there were. -/
theorem step_withFetchWord (s : State) (nbits w : Nat) :
    step (s.withFetchWord nbits w) = blockTurn (issue (tableWord nbits w) s) := by
  have hissued : { s.withFetchWord nbits w with events := s.events } = issue (tableWord nbits w) s := by
    unfold State.withFetchWord
    rw [← issue_events (tableWord nbits w) s]
  rw [step_block rfl, hissued]

theorem decode_of_decodeTableWord {nbits w : Nat} {i : Instr} (h : decodeTableWord nbits w = some i) :
    decode (tableWord nbits w) = .legal i := by
  unfold decodeTableWord at h
  cases hd : decode (tableWord nbits w) with
  | legal j =>
    rw [hd] at h
    exact congrArg _ (Option.some.inj h)
  | illegal why =>
    rw [hd] at h
    cases h

/-- Settles O57: each of these moves is the block's turn, and BUSY with a legal word that is `exec`. -/
theorem stepRunsTheDecodedCommand : Obligations.StepRunsTheDecodedCommand := by
  unfold Obligations.StepRunsTheDecodedCommand
  refine ⟨fun s i hbusy hd h => ?_, fun s i rest hbusy hd h => ?_, fun s i rest hbusy hd h => ?_, fun s nbits w i h => ?_⟩
  · rw [step_nil h, blockTurn_legal hbusy hd]
  · rw [step_block h]
    exact blockTurn_legal hbusy hd
  · rw [step_wait_busy hbusy h]
    exact runCommand_legal hd
  · rw [step_withFetchWord]
    exact blockTurn_legal rfl (decode_of_decodeTableWord h)

/-! ### A command as one transition (R209). -/

/-- No command touches ARG0, ARG1, the latches, the parameters or what is outside the block. -/
theorem ExecOutcome.surroundingsKept {s t : State} {i : Instr} (h : ExecOutcome s i (.next t)) : SurroundingsKept s t := by
  cases h with
  | constructed | cleared | failed | value | filled | stuck => exact SurroundingsKept.refl s

/-- An issue reads no events. -/
theorem issue_withEvents (w : Word32) (s : State) (ev : List Event) :
    issue w { s with events := ev } = (issue w s).mapHost id id (fun _ => ev) id := by
  unfold issue latchTime
  dsimp only
  split
  · rfl
  · rfl

/-- The polled block's turn: the command runs as it would right after its issue, with the poll's data on the host's side. -/
theorem step_wait_issued {s t : State} {w : Word32} {i : Instr} {rest : List Event} (hd : decode w = .legal i)
    (h : exec i (issue w s) = .next t) :
    ∃ v, step (issue w { s with events := .wait :: rest }) = .next (t.mapHost id id (fun _ => .wait :: rest) (fun _ => v)) := by
  have hpolled : ∀ v, { issue w { s with events := .wait :: rest } with portData := v } =
      (issue w s).mapHost id id (fun _ => .wait :: rest) (fun _ => v) := fun v => by
    rw [issue_withEvents]
    rfl
  exact ⟨_, by
    rw [step_wait_busy rfl (issue_events _ _), hpolled, runCommand_mapHost, runCommand_legal (s := issue w s) hd, h]
    rfl⟩

/-- Settles O54: the issue, the polled block's turn and the last poll. -/
theorem commandIsOneTransition : Obligations.CommandIsOneTransition := by
  unfold Obligations.CommandIsOneTransition
  intro s t data i rest hidle h hd hexec hdone
  obtain ⟨v, hturn⟩ := step_wait_issued (rest := rest) hd hexec
  have hpoll := step_wait_idle (s := t.mapHost id id (fun _ => .wait :: rest) (fun _ => v)) hdone rfl
  obtain ⟨harg0, harg1, -⟩ : SurroundingsKept (issue (low32 data) s) t := by
    have hout := exec_outcome i (issue (low32 data) s)
    rw [hexec] at hout
    exact hout.surroundingsKept
  rw [issue_arg0] at harg0
  rw [issue_arg1] at harg1
  refine ⟨_, (core_run_next (step_write_cmd_idle hidle h) 2).trans ((core_run_next hturn 1).trans (core_run_next hpoll 0)), ?_⟩
  exact ⟨⟨rfl, rfl, rfl⟩, ⟨rfl, rfl, rfl, rfl, rfl⟩, hdone, rfl, fun _ => rfl, harg0, harg1, rfl, rfl⟩

end Sys2Proof.Machine
end

section
/-! PROOFS. The invariant of every run (R23, R200, D34): it holds at reset, every step keeps it, and under it no step faults and
every command completes but for a FILL that the platform leaves stuck (R205, R52). -/

namespace Sys2Proof.Machine

/-! ### The report of an error (R200). -/

/-- ERRVAL holds the sign extension of a 32-bit argument, whose low half is that argument. -/
theorem low32_sext32 (v : Word32) : low32 (sext32 v) = v := by
  ext i hi
  have hi' : i < 64 := hi.trans (by norm_num)
  simp [low32, sext32, BitVec.getElem_signExtend, hi, hi']

theorem msb_sext32_of_neg {v : Word32} (h : sint32 v < 0) : (sext32 v).msb = true := by
  rw [BitVec.msb_eq_toInt, sext32_toInt]
  exact decide_eq_true h

/-- Every error that a command reports is a row of R200's table. -/
theorem CommandError.errorReportOk {s : State} {i : Instr} {c : ErrCode} {p : Param} {v : Word64} (h : CommandError s i c p v) :
    ErrorReportOk (raiseError c p v s) := by
  cases h with
  | unseeded _ hs => exact ⟨rfl, rfl, rfl, hs⟩
  | belowMax hs hneg => exact ⟨.inl ⟨rfl, msb_sext32_of_neg hneg⟩, by rw [raiseError_errval, low32_sext32], rfl, hs⟩
  | rangeMin hs hgt => exact ⟨.inr rfl, by rw [raiseError_errval, low32_sext32], rfl, hs⟩
  | fillBuffer hs => exact ⟨rfl, rfl, rfl, hs⟩

/-! ### The invariant, end by end. -/

theorem Inv.raiseError {s : State} (h : Inv s) {c : ErrCode} {p : Param} {v : Word64} (hok : ErrorReportOk (raiseError c p v s)) :
    Inv (raiseError c p v s) := by
  obtain ⟨hmem, hodd, -, hfresh, -, -⟩ := h
  exact ⟨hmem, hodd, hok, fun hs => ⟨(hfresh hs).1, rfl⟩, rfl, fun _ => rfl⟩

theorem Inv.constructedState {s : State} (h : Inv s) (seed stream : Word64) : Inv (constructedState seed stream s) := by
  obtain ⟨hmem, -, -, -, -, -⟩ := h
  exact ⟨hmem, fun _ => construct_inc_getLsbD_zero seed stream (startCommand s), ⟨rfl, rfl⟩, nofun, rfl, fun _ => rfl⟩

theorem Inv.clearedState {s : State} (h : Inv s) : Inv (clearedState s) := by
  obtain ⟨hmem, hodd, -, hfresh, -, -⟩ := h
  exact ⟨hmem, hodd, ⟨rfl, rfl⟩, fun hs => ⟨(hfresh hs).1, rfl⟩, rfl, fun _ => rfl⟩

/-- A command that has drawn leaves the constructed engine constructed, so that only the memory is to be looked at. -/
theorem Inv.valueState {s : State} (h : Inv s) (hs : s.seeded = true) (k : Nat) (v : Word64) : Inv (valueState s k v) := by
  obtain ⟨hmem, hodd, -, -, -, -⟩ := h
  exact ⟨hmem, hodd, ⟨rfl, rfl⟩, fun hs' => (nomatch hs'.symm.trans hs), rfl, fun _ => rfl⟩

theorem Inv.fillState {s : State} (h : Inv s) (hs : s.seeded = true) : Inv (fillState s) := by
  obtain ⟨hmem, hodd, -, -, -, -⟩ := h
  exact ⟨applyWrites_wf _ hmem, hodd, ⟨rfl, rfl⟩, fun hs' => (nomatch hs'.symm.trans hs), rfl, fun _ => rfl⟩

theorem runCommand_keeps_inv {s t : State} (h : Inv s) (hrun : runCommand s = .next t) : Inv t := by
  obtain ⟨-, -, rfl⟩ | ⟨i, -, hout⟩ := runCommand_next_cases hrun
  · exact h.raiseError ⟨rfl, rfl, rfl⟩
  · cases hout with
    | constructed seed stream => exact h.constructedState seed stream
    | cleared => exact h.clearedState
    | failed c p v _ herror => exact h.raiseError herror.errorReportOk
    | value k v _ hs => exact h.valueState hs k v
    | filled _ hs => exact h.fillState hs
    | stuck => exact h

theorem issue_keeps_inv {s : State} (h : Inv s) (w : Word32) : Inv (issue w s) := by
  obtain ⟨hmem, hodd, hok, hfresh, -, -⟩ := h
  obtain ⟨v, f, -, -, hissue⟩ := issue_cases w s
  rw [hissue]
  exact ⟨hmem, hodd, hok, hfresh, rfl, nofun⟩

theorem resetBlock_keeps_inv {s : State} (h : Inv s) : Inv (resetBlock s) := by
  obtain ⟨hmem, -⟩ := h
  exact ⟨applyWrites_wf _ hmem, nofun, ⟨rfl, rfl⟩, fun _ => ⟨rfl, rfl⟩, rfl, fun _ => rfl⟩

/-- Settles O58: the registers of `State.reset` are an engine not constructed with no error and an empty memory. -/
theorem invariantAtReset : Obligations.InvariantAtReset := by
  unfold Obligations.InvariantAtReset
  exact ⟨rfl, nofun, ⟨rfl, rfl⟩, fun _ => ⟨rfl, rfl⟩, rfl, fun _ => rfl⟩

/-- Settles O59: reset, each end of a command, an issue and the other agents' moves keep each part of the invariant. -/
theorem stepKeepsTheInvariant : Obligations.StepKeepsTheInvariant := by
  unfold Obligations.StepKeepsTheInvariant
  intro s t h hstep
  obtain ⟨rest, -, rfl⟩ | ⟨-, -, ev, pd, hrun⟩ | ⟨-, w, ev, rfl⟩ |
    ⟨x, y, o, ti, pd, bd, m, ov, f, ev, -, hmem', hidle, rfl⟩ := step_next_cases hstep
  · exact resetBlock_keeps_inv (s := { s with events := rest }) h
  · exact runCommand_keeps_inv (s := { s with events := ev, portData := pd }) h hrun
  · exact issue_keeps_inv (s := { s with events := ev }) h w
  · obtain ⟨hmem, hodd, hok, hfresh, hwork, hovertaken⟩ := h
    have hwf : m.wf = true := by
      obtain rfl | ⟨a, v, rfl⟩ := hmem'
      · exact hmem
      · exact Memory.wf_write a v hmem
    exact ⟨hwf, hodd, hok, hfresh, hwork, fun hb => (hidle hb).trans (hovertaken hb)⟩

/-! ### Under the invariant the retries are never exhausted (R143, R174, D34). -/

theorem runCommand_ne_fault {s : State} (h : Inv s) (f : Fault) : runCommand s ≠ .fault f := by
  obtain ⟨-, hodd, -⟩ := h
  intro hfault
  obtain ⟨-, -, hrun⟩ | ⟨i, -, -, hout⟩ := runCommand_cases s
  · exact nomatch hfault.symm.trans hrun
  · rw [hfault] at hout
    cases hout with
    | exhausted _ hs heven => exact nomatch heven.symm.trans (hodd hs)

theorem portAccess_ne_fault (a : Access) (s : State) (f : Fault) : portAccess a s ≠ .fault f := by
  rw [portAccess_eq]
  cases portSelect (a.addr - s.cfg.portBase) a.width with
  | none => exact nofun
  | some r => exact nofun

/-- Settles O60: a fault could only come from a command, and INC is odd where a command draws. -/
theorem noStepFaults : Obligations.NoStepFaults := by
  unfold Obligations.NoStepFaults
  intro s f h hfault
  obtain ⟨-, -, ev, pd, hrun⟩ | ⟨a, rest, -, haccess⟩ := step_stop_cases hfault (by simp)
  · exact runCommand_ne_fault (s := { s with events := ev, portData := pd }) h f hrun
  · exact portAccess_ne_fault a _ f haccess

/-- Under the invariant a command answers a next state. -/
theorem runCommand_answers {s : State} (h : Inv s) : ∃ t, runCommand s = .next t := by
  cases hrun : runCommand s with
  | next t => exact ⟨t, rfl⟩
  | fault f => exact absurd hrun (runCommand_ne_fault h f)
  | refused r => exact absurd hrun (runCommand_ne_refused s r)

/-- Settles O53: a command answers, and the only end that keeps BUSY is the stuck FILL's. -/
theorem everyCommandCompletes : Obligations.EveryCommandCompletes := by
  unfold Obligations.EveryCommandCompletes
  intro s h hbusy
  obtain ⟨t, hrun⟩ := runCommand_answers h
  refine ⟨t, (blockTurn_busy hbusy).trans hrun, ?_⟩
  obtain ⟨-, -, rfl⟩ | ⟨i, hd, hout⟩ := runCommand_next_cases hrun
  · exact .inl rfl
  · cases hout with
    | stuck j hi hs hj hrefused => exact .inr ⟨rfl, hi ▸ hd, hs, j, hj, hrefused⟩
    | constructed | cleared | failed | value | filled => exact .inl rfl

end Sys2Proof.Machine
end
